-- ==== Sys2Proof/Word.lean ====
section
/-! DEFINITION. The cell, the machine's only data type, and the byte of the boot image. -/

namespace Sys2Proof

/-- A cell: 32 bits, read as a two's-complement integer by `BitVec.toInt` unless a rule says otherwise
(`10_state.md` R20, `00_scope.md` R7). -/
abbrev Cell := BitVec 32

/-- A byte of the boot image file (`20_memory.md` R64). No byte exists inside the CORE (R51). -/
abbrev Byte := BitVec 8

/-- `wrap32(z)`: the one cell congruent to the exact integer `z` modulo 2^32 (`00_scope.md` R8). -/
def wrap32 (z : Int) : Cell := BitVec.ofInt 32 z

/-- `MIN` of `00_scope.md` R7. -/
def minCell : Cell := 0x80000000#32

/-- `MAX` of `00_scope.md` R7. -/
def maxCell : Cell := 0x7FFFFFFF#32

end Sys2Proof
end

