-- ==== Sys2Proof/Syntax.lean ====
section
/-! DEFINITION. The instructions: one constructor per row of `spec/opcode_table.json`, and an instruction together with
its operand cell. -/

namespace Sys2Proof

/-- The 31 primitives of `30_encoding.md` R77 and the implicit call of R74. The opcode cell has no fields (R70); the
operand cell of a two-cell instruction is read by the instruction itself, from memory, when its pseudocode says so
(`20_memory.md` R62, `41_control.md` R130), so it is no part of the constructor. -/
inductive Instr where
  | nop | lit | dup | drop | swap | push | pop
  | loop | jump | ret | ltJump | gtJump | neJump | eqJump
  | fetch | store
  | add | sub | mul | divmod | and | or | xor | shl | shr
  | zeroExit | inc | dec
  | inPort | outPort | wait
  | call (target : Cell)
  deriving DecidableEq, Repr, Inhabited

/-- Whether the instruction owns the cell after its opcode: the seven of `30_encoding.md` R71. -/
def Instr.hasOperand : Instr → Bool
  | .lit | .loop | .jump | .ltJump | .gtJump | .neJump | .eqJump => true
  | .nop | .dup | .drop | .swap | .push | .pop | .ret | .fetch | .store | .add | .sub | .mul | .divmod
  | .and | .or | .xor | .shl | .shr | .zeroExit | .inc | .dec | .inPort | .outPort | .wait | .call _ => false

/-- The length of an instruction in cells (`30_encoding.md` R71). -/
def Instr.length (i : Instr) : Nat := if i.hasOperand then 2 else 1

/-- An instruction as it lies in memory: its opcode cell's meaning and its operand cell, if it has one
(`30_encoding.md` R70 to R74). -/
structure Code where
  instr : Instr
  operand : Option Cell
  deriving DecidableEq, Repr, Inhabited

/-- The items of the spec's own assembler notation (`30_encoding.md` R84, R85). -/
inductive AsmItem where
  /-- a primitive with its operand, or `CALL a` -/
  | code (c : Code)
  /-- `.cell v` -/
  | cell (v : Cell)
  /-- `.zero n` -/
  | zero (n : Nat)
  /-- `.string "text"`, by its character codes -/
  | string (chars : List Cell)
  deriving DecidableEq, Repr, Inhabited

end Sys2Proof
end

