-- ==== Sys2Proof/Config.lean ====
section
/-! DEFINITION. What an implementation fixes (`00_scope.md` R4) and the free values the environment supplies
(`44_io.md` R200). Each `opaque` constant has no body: nothing can be proved of its value. -/

namespace Sys2Proof

/-- The parameters of `00_scope.md` R4 that the rules of the CORE compute with. They are an argument of the whole model:
each state carries the parameters of its machine and no step changes them (log entry 1). -/
structure Params where
  /-- `MEM_CELLS`, written N: the number of cells of memory (decision D5). -/
  memCells : Nat
  /-- `DS_CAP`: how many cells the data stack can hold (decision D6). -/
  dsCap : Nat
  /-- `AS_CAP`: how many cells the address stack can hold (decision D6). -/
  asCap : Nat
  /-- `OPCODE_MAP`: the primitive with number `n` stands at place `n` (`30_encoding.md` R77, decision D1). -/
  opcodeMap : List Instr
  deriving DecidableEq, Repr, Inhabited

/-- The ports with a role in a pass; the pass reads and writes no other (`10_state.md` R33 to R38). -/
inductive RolePort where
  | handshake | input | console | storage | query
  deriving DecidableEq, Repr, Inhabited

/-- Where the start address of a 0-terminated string is taken from. `91_not_in_source.md` N13 names the three
possibilities and says that none is stated. The port is one a pass reads (`10_state.md` R38; log entry 9). -/
inductive AddrSource where
  | stack
  | port (p : RolePort)
  | fixed (a : Cell)
  deriving DecidableEq, Repr, Inhabited

/-- One argument of a storage request (`44_io.md` R197): a cell popped from the data stack, or a 0-terminated string
read from memory. -/
inductive ArgStep where
  | cell
  | string (src : AddrSource)
  deriving DecidableEq, Repr, Inhabited

/-- The file operations `44_io.md` R203 names without a number. -/
inductive FileOpKind where
  | readByte | writeByte | close | seek | tell | size | delete
  deriving DecidableEq, Repr, Inhabited

/-- An entry of `PORT4_TABLE` for a code the spec gives no number to: which operation it is and the arguments it
takes, in order (`44_io.md` R197, R203; decision D16). -/
structure FileOp where
  kind : FileOpKind
  args : List ArgStep
  deriving DecidableEq, Repr, Inhabited

/-- The machine facts `44_io.md` R204 names without a number. -/
inductive QueryFact where
  | memorySize
  | addressDepth
  | wallClock
  | cellWidth
  | capability (value : Cell)
  deriving DecidableEq, Repr, Inhabited

namespace Config

/-- The free cell the environment supplies at draw `n` (`00_scope.md` R12 "draw"; decisions D15, D17; log entry 5). -/
opaque draw (n : Nat) : Cell

/-- Whether a blocking device read asked at draw `n` is answered by then (`44_io.md` R201; decision D23; log entry 6). -/
opaque answered (n : Nat) : Bool

/-- Whether every input source is exhausted at draw `n` (`44_io.md` R195; log entry 7). -/
opaque inputExhausted (n : Nat) : Bool

/-- `INPUT_EOF`, the sentinel of an exhausted input, any cell (`00_scope.md` R4; decision D26; log entry 7). -/
opaque inputEof : Cell

/-- Whether the open of a file served at draw `n` succeeds (`44_io.md` R203, code -1; log entry 8). -/
opaque openSucceeds (n : Nat) : Bool

/-- Whether the failure sentinel of an open is -1; otherwise it is 0 (`44_io.md` R203 "0 or -1, per operation";
log entry 8). -/
opaque openFailsWithMinusOne : Bool

/-- Where the name's address of port 4 code 2 comes from (`91_not_in_source.md` N13; log entry 9). -/
opaque inputNameSource : AddrSource

/-- Where the path's address of port 4 code -1 comes from (`91_not_in_source.md` N13; log entry 9). -/
opaque openPathSource : AddrSource

/-- Whether an open takes its mode before its path (`91_not_in_source.md` N11; log entry 9). -/
opaque openModeFirst : Bool

/-- `PORT4_TABLE` for the negative codes other than -1 (decision D16; log entry 10). -/
opaque port4Table (code : Cell) : Option FileOp

/-- `PORT5_TABLE` for the negative codes other than -5 and -9 (decision D16; log entry 10). -/
opaque port5Table (code : Cell) : Option QueryFact

/-- What a query answers for a count that is not in the signed range of a cell: the spec states no value
(log entry 11). -/
opaque oversizeFact (n : Nat) : Cell

end Config

end Sys2Proof
end

