-- ==== Sys2Proof/WellFormed.lean ====
section
/-! DEFINITION. Which terms of the syntax stand for something the encoding can hold. -/

namespace Sys2Proof

/-- A cell, read as a signed integer, is a primitive's number (`30_encoding.md` R76). -/
abbrev IsPrimitiveNumber (op : Cell) : Prop := 0 ≤ op.toInt ∧ op.toInt ≤ 30

/-- An implicit call's target is never from 0 to 30: such a cell is a primitive (`30_encoding.md` R74, R85). -/
def Instr.wf : Instr → Bool
  | .call v => !decide (IsPrimitiveNumber v)
  | .nop | .lit | .dup | .drop | .swap | .push | .pop | .loop | .jump | .ret | .ltJump | .gtJump | .neJump
  | .eqJump | .fetch | .store | .add | .sub | .mul | .divmod | .and | .or | .xor | .shl | .shr | .zeroExit
  | .inc | .dec | .inPort | .outPort | .wait => true

/-- An instruction in memory has an operand cell exactly when its opcode owns one (`30_encoding.md` R71). -/
def Code.wf (c : Code) : Bool := c.instr.wf && (c.operand.isSome == c.instr.hasOperand)

/-- An assembler item is legal: its instruction is, and a string holds no zero cell but the one that ends it
(`30_encoding.md` R85, `20_memory.md` R63). -/
def AsmItem.wf : AsmItem → Bool
  | .code c => c.wf
  | .cell _ => true
  | .zero _ => true
  | .string chars => chars.all (· ≠ 0#32)

end Sys2Proof
end

