-- ==== Sys2Proof/Decode.lean ====
section
/-! DEFINITION. The dispatcher's reading of a cell, and the encoder (`30_encoding.md`). Both take the opcode numbers from
one table, `OPCODE_MAP`, given as an argument with the spec's table as its default; a machine runs with the map its
parameters hold. -/

namespace Sys2Proof

/-- The default of `OPCODE_MAP`, the table of `30_encoding.md` R77 (decision D1): the primitive with number `n` stands at
place `n`. Only NOP = 0 is stated by the source (log entry 2). -/
def opcodeMap : List Instr :=
  [.nop, .lit, .dup, .drop, .swap, .push, .pop, .loop, .jump, .ret,
   .ltJump, .gtJump, .neJump, .eqJump, .fetch, .store] ++
  [.add, .sub, .mul, .divmod, .and, .or, .xor, .shl, .shr, .zeroExit,
   .inc, .dec, .inPort, .outPort, .wait]

/-- What `00_scope.md` R4 asks of an `OPCODE_MAP`: the 31 primitives in some order, NOP first. -/
def validOpcodeMap (map : List Instr) : Bool :=
  map.isPerm opcodeMap && (map.head? == some Instr.nop)

/-- The ranges `00_scope.md` R4 requires of the parameters. -/
abbrev Params.WellFormed (p : Params) : Prop :=
  1 ≤ p.memCells ∧ p.memCells ≤ 2 ^ 31 - 2 ∧ 1 ≤ p.dsCap ∧ 1 ≤ p.asCap ∧ validOpcodeMap p.opcodeMap = true

/-- The parameters with the given sizes and the spec's opcode map. -/
def Params.ofSizes (memCells dsCap asCap : Nat) : Params := ⟨memCells, dsCap, asCap, Sys2Proof.opcodeMap⟩

/-- The typical sizes of `00_scope.md` R4 and `93_implementation_defined.md` G3 (PRESUMED, log entry 1), with the spec's
opcode map. -/
def Params.typical : Params := Params.ofSizes 1000000 128 1024

/-- Dispatch (`30_encoding.md` R76) under a given opcode map: total, one instruction for every cell. -/
def decodeWith (map : List Instr) (op : Cell) : Instr :=
  if IsPrimitiveNumber op then map.getD op.toNat (.call op) else .call op

/-- Dispatch under the spec's opcode map. -/
def decodeOp (op : Cell) : Instr := decodeWith opcodeMap op

/-- The opcode cell of an instruction under a given opcode map (`30_encoding.md` R72 to R74). -/
def encodeWith (map : List Instr) : Instr → Cell
  | .call v => v
  | i => BitVec.ofNat 32 (map.idxOf i)

/-- The opcode cell of an instruction under the spec's opcode map. -/
def encodeOp (i : Instr) : Cell := encodeWith opcodeMap i

/-- The cells of an instruction: its opcode cell, then its operand cell if it has one (`30_encoding.md` R70). -/
def Code.encode (c : Code) (map : List Instr := opcodeMap) : List Cell := encodeWith map c.instr :: c.operand.toList

/-- Why a list of cells holds no instruction at its start. No cell value is ever the reason
(`30_encoding.md` R80). -/
inductive DecodeError where
  /-- there is no cell at all -/
  | noCell
  /-- a two-cell opcode with no cell after it (`30_encoding.md` R71) -/
  | noOperand (i : Instr)
  deriving DecidableEq, Repr

/-- Reads the instruction at the start of a list of cells and gives the cells after it. The length is known from the
opcode alone (`30_encoding.md` R82). -/
def decode (cells : List Cell) (map : List Instr := opcodeMap) : Except DecodeError (Code × List Cell) :=
  match cells with
  | [] => .error .noCell
  | op :: rest =>
    if (decodeWith map op).hasOperand then
      match rest with
      | [] => .error (.noOperand (decodeWith map op))
      | x :: rest' => .ok (⟨decodeWith map op, some x⟩, rest')
    else .ok (⟨decodeWith map op, none⟩, rest)

/-- The cells of a sequence of instructions, one after the other. -/
def encodeAll (cs : List Code) (map : List Instr := opcodeMap) : List Cell := cs.flatMap (·.encode map)

/-- Reads a list of cells as instructions one after the other, at most `fuel` of them. -/
def decodeAll (fuel : Nat) (cells : List Cell) (map : List Instr := opcodeMap) : Except DecodeError (List Code) :=
  match fuel, cells with
  | _, [] => .ok []
  | 0, _ :: _ => .error .noCell
  | fuel + 1, w :: ws =>
    match decode (w :: ws) map with
    | .error e => .error e
    | .ok (c, rest) => (decodeAll fuel rest map).map (c :: ·)

/-- The cells of an assembler item (`30_encoding.md` R85). -/
def AsmItem.cells : AsmItem → List Cell
  | .code c => c.encode
  | .cell v => [v]
  | .zero n => List.replicate n 0#32
  | .string chars => chars ++ [0#32]

/-- The two cells an instruction of the opcode table can reach, from its bits numbered as the table numbers them: the
first cell is bits 31 to 0, the operand cell the 32 bits above. -/
def tableCells (nbits w : Nat) : List Cell :=
  [BitVec.ofNat 32 (w % 2 ^ nbits), BitVec.ofNat 32 (w % 2 ^ nbits / 2 ^ 32)]

/-- The instruction the decoder reads from the bits of a row of the opcode table; the bits above `nbits` are zero. -/
def decodeTableWord (nbits w : Nat) : Option Instr :=
  match decode (tableCells nbits w) with
  | .ok (c, _) => some c.instr
  | .error _ => none

end Sys2Proof
end

