-- ==== Sys2Proof/Machine/State.lean ====
section
/-! DEFINITION. The state of the machine, its reset value, and the reasons a step can stop (`10_state.md`,
`60_exceptions.md`). -/

namespace Sys2Proof.Machine

/-- The three faults of a step (`60_exceptions.md` R230; decision D10). Each ends the run and leaves no readable state
(R238), so stopping on one is safe. -/
inductive Fault where
  /-- Raised by a memory access outside [0, N) and by IN or OUT with a port index outside [0, 12) (R231). Safe: it is
  the machine's own outcome. -/
  | outOfBounds
  /-- Raised by a pop or peek on an empty stack and a push on a full one (R232). Safe: it is the machine's own
  outcome. -/
  | stackFault
  /-- Raised by DIVMOD with divisor 0 and by nothing else (R233). Safe: it is the machine's own outcome. -/
  | arithmeticFault
  deriving DecidableEq, Repr, Inhabited

/-- The reasons a step has no meaning. -/
inductive Refusal where
  /-- An instruction that has no meaning yet; raised by `exec` only. Safe. -/
  | notModelled (mnemonic : String)
  /-- WAIT with a port 4 code that no request table defines: the spec gives no behaviour and orders the step refused
  (`44_io.md` R205, `93_implementation_defined.md` U8). Raised by the storage service only. Safe. -/
  | undefinedStorageCode (code : Cell)
  /-- WAIT with a negative port 5 code that no request table defines (`44_io.md` R205,
  `93_implementation_defined.md` U8). Raised by the query service only. Safe. -/
  | undefinedQueryCode (code : Cell)
  deriving DecidableEq, Repr

/-- The stored part of the run status (`10_state.md` R42). HALTED is not stored: it is `ip >= N`. -/
inductive RunStatus where
  | running
  | faulted (kind : Fault)
  | bootFailed
  deriving DecidableEq, Repr, Inhabited

/-- Memory: the cells that do not hold 0, by address, addresses rising. A cell not listed holds 0, which is what every
cell holds after reset (`10_state.md` R44). -/
abbrev Memory := List (Nat × Cell)

/-- What a storage request hands to the device (`44_io.md` R197, R203). -/
inductive DevArg where
  | cell (v : Cell)
  | string (cells : List Cell)
  | image (mem : Memory)
  deriving DecidableEq, Repr

/-- A transaction at the device interface (`44_io.md` R200). -/
inductive DevCall where
  | inputRead
  | consoleEmit (c : Cell)
  | consoleClear
  | storage (code : Cell) (args : List DevArg)
  | clock
  deriving DecidableEq, Repr

/-- The state of the machine, plain data. `10_state.md` names each piece but the last two. -/
structure State where
  /-- the parameters of this machine, its opcode map among them (`00_scope.md` R4); no step changes them -/
  params : Params
  /-- memory (R39) -/
  mem : Memory
  /-- the held cells of the data stack, top first; the depth `dsp` is their number (R22) -/
  dstack : List Cell
  /-- the held cells of the address stack, top first; the depth `asp` is their number (R26) -/
  astack : List Cell
  /-- the instruction pointer (R28) -/
  ip : Cell
  /-- the port registers (R32) -/
  ports : Vector Cell 12
  /-- the run status (R42) -/
  status : RunStatus
  /-- MODEL'S OWN: the device transactions made so far, newest first (log entry 4) -/
  calls : List DevCall
  /-- MODEL'S OWN: how many free values the environment has supplied (log entry 5) -/
  draws : Nat
  deriving DecidableEq, Repr, Inhabited

/-- The machine of the given parameters right after `Reset()` (`10_state.md` R44, `70_reset_and_hazards.md` R260). The status
before `LoadImage` is a DESIGN CHOICE (log entry 3). -/
def State.resetOf (p : Params) : State where
  params := p
  mem := []
  dstack := []
  astack := []
  ip := 0#32
  ports := Vector.replicate 12 0#32
  status := .running
  calls := []
  draws := 0

/-- The machine right after reset, with the typical sizes (PRESUMED, log entry 1) and the spec's opcode map. -/
def State.reset : State := State.resetOf Params.typical

end Sys2Proof.Machine

/-- What memory, the stacks, `ip` and the ports hold after a fault: unspecified (`60_exceptions.md` R238,
`93_implementation_defined.md` U1; log entry 13). -/
opaque Sys2Proof.Config.afterFault (kind : Sys2Proof.Machine.Fault) (s : Sys2Proof.Machine.State) : Sys2Proof.Machine.State
end

