-- ==== Sys2Proof/Machine/Ops.lean ====
section
/-! DEFINITION. The operations every instruction is written with: memory, the two stacks, the ports, the device
interface's bookkeeping, raising a fault, and the parts of the step cycle. An operation that can fail takes the rest of
the pseudocode as its last argument, so a meaning reads in the order of the spec's pseudocode, and the first primitive
that fails gives the outcome (`60_exceptions.md` R237). -/

namespace Sys2Proof.Machine

/-- The outcome of a step, or of the effect of an instruction. -/
abbrev Out := Host.Outcome State Fault Refusal

/-! ### Memory as data -/

/-- The cell at an address: 0 if no entry lists it (`10_state.md` R44, `20_memory.md` R59). -/
def Memory.read : Memory → Nat → Cell
  | [], _ => 0#32
  | (b, v) :: m, a => if a = b then v else Memory.read m a

/-- Sets one cell and keeps the canonical form; writing 0 removes the entry. -/
def Memory.write : Memory → Nat → Cell → Memory
  | [], a, v => if v = 0#32 then [] else [(a, v)]
  | (b, w) :: m, a, v =>
    if a < b then (if v = 0#32 then (b, w) :: m else (a, v) :: (b, w) :: m)
    else if a = b then (if v = 0#32 then m else (a, v) :: m)
    else (b, w) :: Memory.write m a v

/-- Sets the cells from an address on to the given ones (`20_memory.md` R50 `set_block`; used by the image load). -/
def Memory.writeAll : Memory → Nat → List Cell → Memory
  | m, _, [] => m
  | m, a, v :: vs => Memory.writeAll (Memory.write m a v) (a + 1) vs

/-- The canonical form: addresses strictly rising, no entry holding what an unlisted address reads as. -/
abbrev Memory.wf (m : Memory) : Prop := m.Pairwise (fun e f => e.1 < f.1) ∧ ∀ e ∈ m, e.2 ≠ 0#32

/-! ### Updates of single pieces of state -/

/-- Writes the instruction pointer. -/
def State.setIp (s : State) (a : Cell) : State := { s with ip := a }
/-- Replaces the held cells of the data stack. -/
def State.setData (s : State) (l : List Cell) : State := { s with dstack := l }
/-- Replaces the held cells of the address stack. -/
def State.setAddr (s : State) (l : List Cell) : State := { s with astack := l }
/-- Replaces memory. -/
def State.setMem (s : State) (m : Memory) : State := { s with mem := m }
/-- `Port[i]` (`00_scope.md` R10). -/
def State.port (s : State) (i : Fin 12) : Cell := s.ports[i]
/-- `Port[i] <- v` (`00_scope.md` R10). -/
def State.setPort (s : State) (i : Fin 12) (v : Cell) : State := { s with ports := s.ports.set i v }
/-- Records a transaction at the device interface (log entry 4). -/
def State.logCall (s : State) (c : DevCall) : State := { s with calls := c :: s.calls }
/-- Counts one free value taken from the environment (log entry 5). -/
def State.nextDraw (s : State) : State := { s with draws := s.draws + 1 }

/-! ### Faults -/

/-- `raise <Fault>`: the step ends with the fault; nothing is saved and control goes nowhere inside the machine
(`60_exceptions.md` R238, decision D10). There is no return from a fault (R239). -/
def raise (kind : Fault) : Out := .fault kind

/-- The machine after a faulting step, as the host finds it (`60_exceptions.md` R238): the status is FAULTED(kind), and
what memory, the stacks, `ip` and the ports hold is unspecified. The parameters and the device transactions already
made are no part of that. -/
def State.enterFault (s : State) (kind : Fault) : State :=
  { s with
    status := .faulted kind
    mem := (Config.afterFault kind s).mem
    dstack := (Config.afterFault kind s).dstack
    astack := (Config.afterFault kind s).astack
    ip := (Config.afterFault kind s).ip
    ports := (Config.afterFault kind s).ports }

/-! ### The memory fetch/store unit -/

/-- The bounds check `0 <= addr < N`, signed (`20_memory.md` R53). -/
abbrev State.InBounds (s : State) (a : Cell) : Prop := 0 ≤ a.toInt ∧ a.toInt < s.params.memCells

/-- `MemRead(addr, 1)` (`20_memory.md` R53). -/
def memRead (s : State) (a : Cell) (k : Cell → Out) : Out :=
  if s.InBounds a then k (s.mem.read a.toNat) else raise .outOfBounds

/-- `MemWrite(addr, 1, v)` (`20_memory.md` R54). -/
def memWrite (s : State) (a v : Cell) (k : State → Out) : Out :=
  if s.InBounds a then k (s.setMem (s.mem.write a.toNat v)) else raise .outOfBounds

/-! ### The data stack (`10_state.md` R23) -/

/-- `DPush(v)`. -/
def dPush (s : State) (v : Cell) (k : State → Out) : Out :=
  if s.dstack.length < s.params.dsCap then k (s.setData (v :: s.dstack)) else raise .stackFault

/-- `DPop()`. -/
def dPop (s : State) (k : Cell → State → Out) : Out :=
  match s.dstack with
  | [] => raise .stackFault
  | v :: l => k v (s.setData l)

/-- `DPeek()`. -/
def dPeek (s : State) (k : Cell → Out) : Out :=
  match s.dstack with
  | [] => raise .stackFault
  | v :: _ => k v

/-- `DPeek2()`. -/
def dPeek2 (s : State) (k : Cell → Out) : Out :=
  match s.dstack with
  | _ :: v :: _ => k v
  | _ => raise .stackFault

/-- `drop(n)`: that many pops. -/
def dDrop : Nat → State → (State → Out) → Out
  | 0, s, k => k s
  | n + 1, s, k => dPop s fun _ s => dDrop n s k

/-- `DDepth()`. -/
def State.dDepth (s : State) : Nat := s.dstack.length

/-! ### The address stack (`10_state.md` R26) -/

/-- `APush(v)`. -/
def aPush (s : State) (v : Cell) (k : State → Out) : Out :=
  if s.astack.length < s.params.asCap then k (s.setAddr (v :: s.astack)) else raise .stackFault

/-- `APop()`. -/
def aPop (s : State) (k : Cell → State → Out) : Out :=
  match s.astack with
  | [] => raise .stackFault
  | v :: l => k v (s.setAddr l)

/-- `APeek()`. -/
def aPeek (s : State) (k : Cell → Out) : Out :=
  match s.astack with
  | [] => raise .stackFault
  | v :: _ => k v

/-- `ADepth()`. -/
def State.aDepth (s : State) : Nat := s.astack.length

/-! ### The environment -/

/-- A value the environment supplies under no law of the spec (`00_scope.md` R12 "draw"). -/
def drawCell (s : State) (k : Cell → State → Out) : Out := k (Config.draw s.draws) s.nextDraw

/-- The hold of a WAIT whose device has not answered (`44_io.md` R201, decision D23): `ip` is left one cell short, so
that the closing increment lands on the same WAIT again, and nothing else the spec names changes (log entry 6). -/
def hold (s : State) : Out := .next (s.setIp (s.ip - 1#32)).nextDraw

/-- Waits for a blocking device read: holds the machine in the state `held` until the device answers. -/
def awaitDevice (held s : State) (k : State → Out) : Out :=
  if Config.answered s.draws then k s.nextDraw else hold held

/-! ### The step cycle (`30_encoding.md` R75, R86) -/

/-- HALTED: `ip >= N`, signed (`30_encoding.md` R86). -/
abbrev State.Halted (s : State) : Prop := (s.params.memCells : Int) ≤ s.ip.toInt

/-- The machine takes no further step: it is halted, has faulted or has failed to boot (`30_encoding.md` R86, R87,
`60_exceptions.md` R238, R234). -/
abbrev State.Stopped (s : State) : Prop := s.status ≠ .running ∨ s.Halted

/-- The instruction a fetched cell selects under the machine's opcode map (`30_encoding.md` R76, R77). -/
def State.dispatch (s : State) (op : Cell) : Instr := decodeWith s.params.opcodeMap op

/-- The opcode fetch (`30_encoding.md` R75). -/
def fetchOp (s : State) (k : Cell → Out) : Out := memRead s s.ip k

/-- The closing increment, performed unless the effect raised a fault (`30_encoding.md` R75). -/
def closeStep : Out → Out
  | .next t => .next (t.setIp (t.ip + 1#32))
  | .fault f => .fault f
  | .refused r => .refused r

end Sys2Proof.Machine
end

