-- ==== Sys2Proof/Machine/Flags.lean ====
section
/-! DEFINITION. The comparisons. The machine has no flags and no condition codes (`10_state.md` R31): a comparison is made
and consumed inside one instruction, and these are all of them. -/

namespace Sys2Proof.Machine

/-- `a < b`, signed (`41_control.md` R124); `a` is the second-popped cell. -/
def condLt (a b : Cell) : Bool := decide (a.toInt < b.toInt)

/-- `a > b`, signed (`41_control.md` R125). -/
def condGt (a b : Cell) : Bool := decide (b.toInt < a.toInt)

/-- `a != b` (`41_control.md` R126). -/
def condNe (a b : Cell) : Bool := decide (a ≠ b)

/-- `a = b` (`41_control.md` R127). -/
def condEq (a b : Cell) : Bool := decide (a = b)

/-- The test of LOOP on the decremented counter: `r > 0`, signed (`41_control.md` R121). -/
def loopAgain (r : Cell) : Bool := decide (0 < r.toInt)

/-- The test of ZERO_EXIT (`41_control.md` R128). -/
def isZero (b : Cell) : Bool := decide (b = 0#32)

/-- A negative cell: the console's clear signal (`44_io.md` R196), a request on port 5 (R198), a file operation on
port 4 (R203). -/
def isNegative (c : Cell) : Bool := decide (c.toInt < 0)

end Sys2Proof.Machine
end

