-- ==== Sys2Proof/Machine/Operands.lean ====
section
/-! DEFINITION. Where operands come from: the operand cell of a two-cell instruction, a port index, a 0-terminated
string, the arguments of a storage request. -/

namespace Sys2Proof.Machine

/-- Reads the operand cell at `ip + 1` (`30_encoding.md` R73, R79). -/
def readOperand (s : State) (k : Cell → Out) : Out := memRead s (s.ip + 1#32) k

/-- Moves `ip` onto the operand cell, so that the closing increment passes it (`41_control.md` R121, R130). -/
def skipOperand (s : State) : Out := .next (s.setIp (s.ip + 1#32))

/-- A port index from a cell; outside 0 to 11 it raises OutOfBounds (`44_io.md` R190, R191, decision D12). -/
def portIndex (x : Cell) (k : Fin 12 → Out) : Out :=
  if h : 0 ≤ x.toInt ∧ x.toInt ≤ 11 then k ⟨x.toInt.toNat, by omega⟩ else raise .outOfBounds

/-- The cells from an address up to the first 0, looking at no more than `fuel` cells; none if there is no 0 among
them. -/
def scanString (m : Memory) : (fuel : Nat) → (a : Nat) → Option (List Cell)
  | 0, _ => none
  | fuel + 1, a => if m.read a = 0#32 then some [] else (scanString m fuel (a + 1)).map (m.read a :: ·)

/-- `ReadString(addr)` (`20_memory.md` R63): the scan raises OutOfBounds when it leaves memory before a 0. -/
def readString (s : State) (a : Cell) (k : List Cell → Out) : Out :=
  if s.InBounds a then
    match scanString s.mem (s.params.memCells - a.toNat) a.toNat with
    | some cs => k cs
    | none => raise .outOfBounds
  else raise .outOfBounds

/-- The register of a port with a role. -/
def rolePortIndex : RolePort → Fin 12
  | .handshake => 0
  | .input => 1
  | .console => 2
  | .storage => 4
  | .query => 5

/-- The start address of a string (`91_not_in_source.md` N13). -/
def stringAddress (src : AddrSource) (s : State) (k : Cell → State → Out) : Out :=
  match src with
  | .stack => dPop s k
  | .port p => k (s.port (rolePortIndex p)) s
  | .fixed a => k a s

/-- Takes the arguments of a storage request in order (`44_io.md` R197). -/
def takeArgs : List ArgStep → State → (List DevArg → State → Out) → Out
  | [], s, k => k [] s
  | .cell :: steps, s, k => dPop s fun v s => takeArgs steps s fun args s => k (.cell v :: args) s
  | .string src :: steps, s, k =>
    stringAddress src s fun a s => readString s a fun cs => takeArgs steps s fun args s => k (.string cs :: args) s

end Sys2Proof.Machine
end

