-- ==== Sys2Proof/Machine/Alu.lean ====
section
/-! DEFINITION. The ALU (`43_alu.md`). Each result is the exact integer result narrowed by `wrap32`; `a` is the cell
popped second and the left operand (R160). -/

namespace Sys2Proof.Machine

/-- `wrap32(a + b)` (`43_alu.md` R161, decision D2). -/
def addCell (a b : Cell) : Cell := wrap32 (a.toInt + b.toInt)

/-- `wrap32(a - b)` (`43_alu.md` R162, decision D2). -/
def subCell (a b : Cell) : Cell := wrap32 (a.toInt - b.toInt)

/-- `wrap32(a * b)` (`43_alu.md` R163, decision D2). -/
def mulCell (a b : Cell) : Cell := wrap32 (a.toInt * b.toInt)

/-- `wrap32(a quo b)`: division truncating toward zero (`43_alu.md` R164, `00_scope.md` R8). -/
def quoCell (a b : Cell) : Cell := wrap32 (a.toInt.tdiv b.toInt)

/-- `wrap32(a rem b)`, `a rem b = a - b * (a quo b)` (`43_alu.md` R164, `00_scope.md` R8). -/
def remCell (a b : Cell) : Cell := wrap32 (a.toInt - b.toInt * a.toInt.tdiv b.toInt)

/-- The effective shift count `b[4:0]` (`43_alu.md` R174, decision D4; log entry 14). -/
def shiftCount (b : Cell) : Nat := (b.extractLsb 4 0).toNat

/-- `a << n` (`43_alu.md` R168). -/
def shlCell (a b : Cell) : Cell := a <<< shiftCount b

/-- `a >>a n` (`43_alu.md` R169). -/
def shrCell (a b : Cell) : Cell := a.sshiftRight (shiftCount b)

/-- The common shape of the two-operand instructions (`43_alu.md` R160). -/
def binary (f : Cell → Cell → Cell) (s : State) : Out :=
  dPop s fun b s => dPop s fun a s => dPush s (f a b) .next

/-- The common shape of INC and DEC (`43_alu.md` R170, R171). -/
def unary (f : Cell → Cell) (s : State) : Out := dPop s fun b s => dPush s (f b) .next

/-- ADD (`43_alu.md` R161). -/
def execAdd (s : State) : Out := binary addCell s

/-- SUB (`43_alu.md` R162). -/
def execSub (s : State) : Out := binary subCell s

/-- MUL (`43_alu.md` R163). -/
def execMul (s : State) : Out := binary mulCell s

/-- DIVMOD (`43_alu.md` R164): the remainder is pushed first, so the quotient ends on top. -/
def execDivmod (s : State) : Out :=
  dPop s fun b s => dPop s fun a s =>
    if b = 0#32 then raise .arithmeticFault
    else dPush s (remCell a b) fun s => dPush s (quoCell a b) .next

/-- AND (`43_alu.md` R165). -/
def execAnd (s : State) : Out := binary (fun a b => a &&& b) s

/-- OR (`43_alu.md` R166). -/
def execOr (s : State) : Out := binary (fun a b => a ||| b) s

/-- XOR (`43_alu.md` R167). -/
def execXor (s : State) : Out := binary (fun a b => a ^^^ b) s

/-- SHL (`43_alu.md` R168). -/
def execShl (s : State) : Out := binary shlCell s

/-- SHR (`43_alu.md` R169). -/
def execShr (s : State) : Out := binary shrCell s

/-- INC (`43_alu.md` R170). -/
def execInc (s : State) : Out := unary (fun b => wrap32 (b.toInt + 1)) s

/-- DEC (`43_alu.md` R171). -/
def execDec (s : State) : Out := unary (fun b => wrap32 (b.toInt - 1)) s

end Sys2Proof.Machine
end

