-- ==== Sys2Proof/Machine/Control.lean ====
section
/-! DEFINITION. Control transfer and the trailing-NOP skip (`41_control.md`). A transfer writes the target minus one; the
closing increment of the step lands on the target (`30_encoding.md` R79). -/

namespace Sys2Proof.Machine

/-- One check of the trailing-NOP skip: if the cell after `ip` is 0, `ip` moves onto it. -/
def skipOnce (s : State) (k : State → Out) : Out :=
  memRead s (s.ip + 1#32) fun v => if v = 0#32 then k (s.setIp (s.ip + 1#32)) else k s

/-- `NopSkip()` (`41_control.md` R120): the check is always made twice. -/
def nopSkip (s : State) (k : State → Out) : Out := skipOnce s fun s => skipOnce s k

/-- A taken branch to the operand cell's address, with no skip. -/
def takeBranch (s : State) : Out := readOperand s fun t => .next (s.setIp (t - 1#32))

/-- LOOP (`41_control.md` R121): the operand cell is read only when the branch is taken. -/
def execLoop (s : State) : Out :=
  dPop s fun n s =>
    if loopAgain (n - 1#32) then dPush s (n - 1#32) takeBranch else skipOperand s

/-- JUMP (`41_control.md` R122). -/
def execJump (s : State) : Out := readOperand s fun t => nopSkip (s.setIp (t - 1#32)) .next

/-- RETURN (`41_control.md` R123). -/
def execRet (s : State) : Out := aPop s fun r s => nopSkip (s.setIp r) .next

/-- The common behaviour of the conditional jumps (`41_control.md` R130): both operands are consumed whatever the
outcome, and the operand cell is read only when the branch is taken. -/
def condJump (cond : Cell → Cell → Bool) (s : State) : Out :=
  dPop s fun b s => dPop s fun a s => if cond a b then takeBranch s else skipOperand s

/-- LT_JUMP (`41_control.md` R124). -/
def execLtJump (s : State) : Out := condJump condLt s

/-- GT_JUMP (`41_control.md` R125). -/
def execGtJump (s : State) : Out := condJump condGt s

/-- NE_JUMP (`41_control.md` R126). -/
def execNeJump (s : State) : Out := condJump condNe s

/-- EQ_JUMP (`41_control.md` R127). -/
def execEqJump (s : State) : Out := condJump condEq s

/-- ZERO_EXIT (`41_control.md` R128): when taken, no skip is made. -/
def execZeroExit (s : State) : Out :=
  dPeek s fun b =>
    if isZero b then dPop s fun _ s => aPop s fun r s => .next (s.setIp r) else .next s

/-- The implicit call (`41_control.md` R129): it pushes the address of the calling cell itself. -/
def execCall (v : Cell) (s : State) : Out :=
  aPush s s.ip fun s => nopSkip (s.setIp (v - 1#32)) .next

end Sys2Proof.Machine
end

