-- ==== Sys2Proof/Machine/Io.lean ====
section
/-! DEFINITION. The port instructions and the port-bus synchronizer (`44_io.md`). -/

namespace Sys2Proof.Machine

/-- IN (`44_io.md` R190): a consuming read. -/
def execInPort (s : State) : Out :=
  dPop s fun x s => portIndex x fun i => dPush s (s.port i) fun s => .next (s.setPort i 0#32)

/-- OUT (`44_io.md` R191): port 0 is cleared after the write. -/
def execOutPort (s : State) : Out :=
  dPop s fun x s => dPop s fun y s => portIndex x fun i => .next ((s.setPort i y).setPort 0 0#32)

/-- Every service ends by setting port 0 to 1 (`44_io.md` R199). -/
def complete (s : State) : Out := .next (s.setPort 0 1#32)

/-! ### Step 2: input -/

/-- What the input device answers at a draw: a byte of the topmost source, or `INPUT_EOF` when every source is
exhausted (`44_io.md` R195, decisions D15, D26; log entry 7). -/
def inputCell (n : Nat) : Cell :=
  if Config.inputExhausted n then Config.inputEof else ((Config.draw n).setWidth 8).setWidth 32

/-- `ServiceInput()` (`44_io.md` R195). -/
def serviceInput (s : State) : Out :=
  awaitDevice s s fun s =>
    complete ((s.logCall .inputRead).nextDraw.setPort 1 (inputCell s.draws))

/-! ### Step 3: console -/

/-- The device call for a console cell (`44_io.md` R196, decision D25). -/
def consoleCall (c : Cell) : DevCall := if isNegative c then .consoleClear else .consoleEmit c

/-- `ServiceConsole()` (`44_io.md` R196). -/
def serviceConsole (s : State) : Out :=
  dPop s fun c s => complete ((s.logCall (consoleCall c)).setPort 2 0#32)

/-! ### Step 4: storage -/

/-- The end of a storage request: the device call, the response in port 4, completion (`44_io.md` R197). -/
def finishStorage (code : Cell) (args : List DevArg) (r : Cell) (s : State) : Out :=
  complete ((s.logCall (.storage code args)).setPort 4 r)

/-- The arguments of an open: a mode on the data stack and a path (`44_io.md` R203, code -1). Their order is not stated
(`91_not_in_source.md` N11; log entry 9). -/
def openArgs : List ArgStep :=
  if Config.openModeFirst then [.cell, .string Config.openPathSource] else [.string Config.openPathSource, .cell]

/-- A positive cell from any cell: the law of a slot id (`44_io.md` R203 "positive slot id"). -/
def positiveCell (c : Cell) : Cell := if 0 < c.toInt then c else 1#32

/-- What the device answers to an open at a draw: a positive slot id, or its failure sentinel, 0 or -1
(`44_io.md` R203, R205; log entry 8). -/
def openAnswer (n : Nat) : Cell :=
  if Config.openSucceeds n then positiveCell (Config.draw n)
  else if Config.openFailsWithMinusOne then -1#32 else 0#32

/-- Port 4 code 1: the device reads all of memory; the response is 0 (`44_io.md` R203, decision D17). -/
def saveRequest (s : State) : Out := finishStorage 1#32 [.image s.mem] 0#32 s

/-- Port 4 code 2: the device gets the name; the response is 0 (`44_io.md` R203, decision D17). -/
def inputSourceRequest (s : State) : Out :=
  takeArgs [.string Config.inputNameSource] s fun args s => finishStorage 2#32 args 0#32 s

/-- Port 4 code -1: the device gets the mode and the path (`44_io.md` R203). -/
def openRequest (s : State) : Out :=
  takeArgs openArgs s fun args s => finishStorage (-1#32) args (openAnswer s.draws) s.nextDraw

/-- A file operation of `PORT4_TABLE` (`44_io.md` R197). Only a read can block (R201); while it does nothing is
popped. -/
def fileRequest (code : Cell) (op : FileOp) (held : State) : Out :=
  takeArgs op.args held fun args s =>
    if op.kind = .readByte then
      awaitDevice held s fun s => drawCell s fun r s => finishStorage code args r s
    else drawCell s fun r s => finishStorage code args r s

/-- `ServiceStorage()` (`44_io.md` R197) by the code in port 4 (R203). A code with no entry is refused (R205). -/
def serviceStorage (s : State) : Out :=
  let code := s.port 4
  if code = 1#32 then saveRequest s
  else if code = 2#32 then inputSourceRequest s
  else if code = -1#32 then openRequest s
  else if isNegative code then
    match Config.port4Table code with
    | some op => fileRequest code op s
    | none => .refused (.undefinedStorageCode code)
  else .refused (.undefinedStorageCode code)

/-! ### Step 5: queries -/

/-- A count as a cell. A count above the signed range has no stated answer (log entry 11). -/
def countCell (n : Nat) : Cell := if n < 2 ^ 31 then BitVec.ofNat 32 n else Config.oversizeFact n

/-- The end of a query: the fact in port 5, completion (`44_io.md` R198). -/
def finishQuery (fact : Cell) (s : State) : Out := complete (s.setPort 5 fact)

/-- The facts `44_io.md` R204 names without a number. -/
def queryFact (fact : QueryFact) (s : State) : Out :=
  match fact with
  | .memorySize => finishQuery (countCell s.params.memCells) s
  | .addressDepth => finishQuery (countCell s.aDepth) s
  | .wallClock => drawCell (s.logCall .clock) finishQuery
  | .cellWidth => finishQuery 32#32 s
  | .capability v => finishQuery v s

/-- Port 5 code -9 (`44_io.md` R198): port 5 gets a free value (decision D17) and `ip` becomes N. -/
def haltRequest (s : State) : Out :=
  drawCell s fun v s => complete ((s.setPort 5 v).setIp (BitVec.ofNat 32 s.params.memCells))

/-- `ServiceQuery()` (`44_io.md` R198) by the code in port 5 (R204). A code with no entry is refused (R205). -/
def serviceQuery (s : State) : Out :=
  let code := s.port 5
  if code = -5#32 then finishQuery (countCell s.dDepth) s
  else if code = -9#32 then haltRequest s
  else
    match Config.port5Table code with
    | some fact => queryFact fact s
    | none => .refused (.undefinedQueryCode code)

/-! ### The pass -/

/-- `PortPass()` (`44_io.md` R193): the first posted request, in the order port 1, 2, 4, 5, is serviced. -/
def portPass (s : State) : Out :=
  if s.port 0 ≠ 0#32 then .next s
  else if s.port 1 = 1#32 then serviceInput s
  else if s.port 2 = 1#32 then serviceConsole s
  else if s.port 4 ≠ 0#32 then serviceStorage s
  else if isNegative (s.port 5) then serviceQuery s
  else .next s

/-- WAIT (`44_io.md` R192): one pass of the synchronizer. -/
def execWait (s : State) : Out := portPass s

end Sys2Proof.Machine
end

