-- ==== Sys2Proof/Machine/MemoryInstr.lean ====
section
/-! DEFINITION. The load and the store (`42_memory_ops.md`). -/

namespace Sys2Proof.Machine

/-- FETCH (`42_memory_ops.md` R150). -/
def execFetch (s : State) : Out :=
  dPop s fun addr s => memRead s addr fun v => dPush s v .next

/-- STORE (`42_memory_ops.md` R151): the address is popped first. -/
def execStore (s : State) : Out :=
  dPop s fun addr s => dPop s fun value s => memWrite s addr value .next

end Sys2Proof.Machine
end

