-- ==== Sys2Proof/Machine/StackInstr.lean ====
section
/-! DEFINITION. The stack and literal instructions (`40_stack.md`). -/

namespace Sys2Proof.Machine

/-- NOP (`40_stack.md` R100): no effect. -/
def execNop (s : State) : Out := .next s

/-- LIT (`40_stack.md` R101): `ip` moves onto the operand cell, which is read, then pushed. -/
def execLit (s : State) : Out :=
  readOperand s fun x => dPush (s.setIp (s.ip + 1#32)) x .next

/-- DUP (`40_stack.md` R102). -/
def execDup (s : State) : Out := dPeek s fun b => dPush s b .next

/-- DROP (`40_stack.md` R103). -/
def execDrop (s : State) : Out := dPop s fun _ s => .next s

/-- SWAP (`40_stack.md` R104). -/
def execSwap (s : State) : Out :=
  dPop s fun b s => dPop s fun a s => dPush s b fun s => dPush s a .next

/-- PUSH (`40_stack.md` R105): from the data stack to the address stack. -/
def execPush (s : State) : Out := dPop s fun b s => aPush s b .next

/-- POP (`40_stack.md` R106): from the address stack to the data stack. -/
def execPop (s : State) : Out := aPop s fun b s => dPush s b .next

end Sys2Proof.Machine
end

