-- ==== Sys2Proof/Machine/Dispatch.lean ====
section
/-! DEFINITION. The effect of an instruction, one arm per constructor. The closing increment of `ip` is the step's
(`30_encoding.md` R75). -/

namespace Sys2Proof.Machine

def exec (i : Instr) (s : State) : Host.Outcome State Fault Refusal :=
  match i with
  | .nop => Sys2Proof.Machine.execNop s
  | .lit => Sys2Proof.Machine.execLit s
  | .dup => Sys2Proof.Machine.execDup s
  | .drop => Sys2Proof.Machine.execDrop s
  | .swap => Sys2Proof.Machine.execSwap s
  | .push => Sys2Proof.Machine.execPush s
  | .pop => Sys2Proof.Machine.execPop s
  | .loop => Sys2Proof.Machine.execLoop s
  | .jump => Sys2Proof.Machine.execJump s
  | .ret => Sys2Proof.Machine.execRet s
  | .ltJump => Sys2Proof.Machine.execLtJump s
  | .gtJump => Sys2Proof.Machine.execGtJump s
  | .neJump => Sys2Proof.Machine.execNeJump s
  | .eqJump => Sys2Proof.Machine.execEqJump s
  | .fetch => Sys2Proof.Machine.execFetch s
  | .store => Sys2Proof.Machine.execStore s
  | .add => Sys2Proof.Machine.execAdd s
  | .sub => Sys2Proof.Machine.execSub s
  | .mul => Sys2Proof.Machine.execMul s
  | .divmod => Sys2Proof.Machine.execDivmod s
  | .and => Sys2Proof.Machine.execAnd s
  | .or => Sys2Proof.Machine.execOr s
  | .xor => Sys2Proof.Machine.execXor s
  | .shl => Sys2Proof.Machine.execShl s
  | .shr => Sys2Proof.Machine.execShr s
  | .zeroExit => Sys2Proof.Machine.execZeroExit s
  | .inc => Sys2Proof.Machine.execInc s
  | .dec => Sys2Proof.Machine.execDec s
  | .inPort => Sys2Proof.Machine.execInPort s
  | .outPort => Sys2Proof.Machine.execOutPort s
  | .wait => Sys2Proof.Machine.execWait s
  | .call v => Sys2Proof.Machine.execCall v s

end Sys2Proof.Machine
end

