-- ==== Sys2Proof/Machine/Step.lean ====
section
/-! DEFINITION. One step of the machine (`30_encoding.md` R75, R86), and placing an instruction where it fetches. -/

namespace Sys2Proof.Machine

/-- One step: fetch, dispatch, effect, closing increment. A stopped machine takes no step and keeps its state
(`30_encoding.md` R86, R87; log entry 15). -/
def step (s : State) : Host.Outcome State Fault Refusal :=
  if s.Stopped then .next s
  else fetchOp s fun op => closeStep (exec (s.dispatch op) s)

/-- The machine with an instruction of the opcode table, and the operand cell after it, where the next step fetches; a
cell past the end of memory is left out (log entry 16). -/
def State.withFetchWord (s : State) (nbits w : Nat) : State :=
  { s with
    mem := s.mem.writeAll s.ip.toNat ((tableCells nbits w).take (s.params.memCells - s.ip.toNat))
    status := .running }

end Sys2Proof.Machine
end

