-- ==== Sys2Proof/Machine/HostInterface.lean ====
section
/-! DEFINITION. The host interface (`00_scope.md` R6): reset, loading and saving the boot image, running, and the status
the host reads back. -/

namespace Sys2Proof.Machine

/-! ### The boot image (`20_memory.md` R64, R65) -/

/-- The cell of four bytes, most significant first (`20_memory.md` R64). -/
def cellOfBytes (b0 b1 b2 b3 : Byte) : Cell :=
  BitVec.ofNat 32 (b0.toNat * 2 ^ 24 + b1.toNat * 2 ^ 16 + b2.toNat * 2 ^ 8 + b3.toNat)

/-- The four bytes of a cell, most significant first (`20_memory.md` R65). -/
def bytesOfCell (v : Cell) : List Byte :=
  [v.extractLsb' 24 8, v.extractLsb' 16 8, v.extractLsb' 8 8, v.extractLsb' 0 8]

/-- The words of an image file; none if its length is no multiple of four bytes (decision D19). -/
def imageWords : List Byte → Option (List Cell)
  | [] => some []
  | b0 :: b1 :: b2 :: b3 :: bs => (imageWords bs).map (cellOfBytes b0 b1 b2 b3 :: ·)
  | _ => none

/-- The file of some words. -/
def imageBytes (ws : List Cell) : List Byte := ws.flatMap bytesOfCell

/-- The cells `Mem[a]`, `Mem[a + 1]`, ... as many as asked for. -/
def Memory.cells (m : Memory) : (count : Nat) → (a : Nat) → List Cell
  | 0, _ => []
  | n + 1, a => m.read a :: Memory.cells m n (a + 1)

/-- `SaveImage()` (`20_memory.md` R65). How many cells are written is the device's choice. Memory has only the cells
below N, so a count above N writes those N and no more: a DESIGN CHOICE (log entry 22). -/
def State.saveImage (s : State) (count : Nat) : List Byte := imageBytes (s.mem.cells (min count s.params.memCells) 0)

/-! ### Reset and run -/

/-- `Reset()` of a machine at any time (`70_reset_and_hazards.md` R260): every piece of CORE state; the device side, and
with it the model's record of it, is not touched. -/
def State.hostReset (s : State) : State :=
  { State.resetOf s.params with calls := s.calls, draws := s.draws }

/-- The machine is as `Reset()` leaves it, and nothing has happened to it since. -/
abbrev State.JustReset (s : State) : Prop := s = s.hostReset

/-- A failed load: BOOT_FAILED, and nothing else is written (`60_exceptions.md` R234, decision D24; log entry 12). -/
def State.bootFail (s : State) : State := { s with status := .bootFailed }

/-- Loads words from address 0 on into a machine just reset. It fails if they do not fit or leave 0 in cell 0
(`20_memory.md` R64). -/
def State.loadWords (s : State) (ws : List Cell) : State :=
  if ws.length ≤ s.params.memCells ∧ (s.mem.writeAll 0 ws).read 0 ≠ 0#32 then s.setMem (s.mem.writeAll 0 ws)
  else s.bootFail

/-- `LoadImage(bytes)` (`20_memory.md` R64) where the `none` file is an absent one. The boot order is reset, then load
(`70_reset_and_hazards.md` R262), and the spec gives no load of a machine in any other condition: there the model has
no result, a DESIGN CHOICE (log entry 21), so that FAULTED, BOOT_FAILED and HALTED are left by reset only (R260). -/
def State.loadImage (s : State) (file : Option (List Byte)) : Option State :=
  if s.JustReset then
    match file.bind imageWords with
    | some ws => some (s.loadWords ws)
    | none => some s.bootFail
  else none

/-- One step of `Run()` (`70_reset_and_hazards.md` R262): a faulting step leaves the machine FAULTED
(`60_exceptions.md` R238); a refused step has no successor (`44_io.md` R205). -/
def State.runStep (s : State) : Option State :=
  match step s with
  | .next t => some t
  | .fault kind => some (s.enterFault kind)
  | .refused _ => none

/-- The status the host reads back (`00_scope.md` R6, `10_state.md` R42). -/
inductive HostStatus where
  | running
  | halted
  | faulted (kind : Fault)
  | bootFailed
  deriving DecidableEq, Repr

/-- The run status as the host sees it: HALTED is `ip >= N` and not stored (`10_state.md` R42). -/
def State.hostStatus (s : State) : HostStatus :=
  match s.status with
  | .faulted kind => .faulted kind
  | .bootFailed => .bootFailed
  | .running => if s.Halted then .halted else .running

end Sys2Proof.Machine
end

