-- ==== Sys2Proof/Safety.lean ====
section
/-! DEFINITION. What the statements about the machine are said with: the invariants of its states, the ends of an outcome,
where a transfer with the trailing-NOP skip lands, and what each instruction takes from and leaves on the data stack. -/

namespace Sys2Proof.Machine

/-- A state the spec allows: parameters in range (`00_scope.md` R4), memory in its canonical form with no entry outside
[0, N) (`10_state.md` R39), both stacks within their capacities (R22, R26). -/
abbrev State.Inv (s : State) : Prop :=
  s.params.WellFormed ∧ s.mem.wf ∧ (∀ e ∈ s.mem, e.1 < s.params.memCells) ∧
  s.dstack.length ≤ s.params.dsCap ∧ s.astack.length ≤ s.params.asCap

/-- Port 0 holds 0 or 1 (`10_state.md` R33). -/
abbrev State.Handshake (s : State) : Prop := s.port 0 = 0#32 ∨ s.port 0 = 1#32

/-- If the outcome is a next state, that state satisfies `P`. -/
def Ends (P : State → Prop) (o : Out) : Prop := ∀ t, o = .next t → P t

/-- Where the next fetch happens after a transfer to `t` with the trailing-NOP skip; none if the skip leaves memory
(`41_control.md` R120, "The outcome is"). -/
def landing (s : State) (t : Cell) : Option Cell :=
  if s.InBounds t then
    if s.mem.read t.toNat ≠ 0#32 then some t
    else if s.InBounds (t + 1#32) then
      if s.mem.read (t + 1#32).toNat ≠ 0#32 then some (t + 1#32) else some (t + 2#32)
    else none
  else none

/-- How many cells of the data stack an instruction takes: the left side of its stack effect (`40_stack.md`,
`41_control.md`, `42_memory_ops.md`, `43_alu.md`, `44_io.md`). Its first pops and peeks need as many
(`60_exceptions.md` R232). What a service takes during a WAIT depends on the request. -/
def dataTaken : Instr → Nat
  | .dup | .drop | .push | .loop | .fetch | .inc | .dec | .zeroExit | .inPort => 1
  | .swap | .ltJump | .gtJump | .neJump | .eqJump | .store | .add | .sub | .mul | .divmod | .and | .or | .xor
  | .shl | .shr | .outPort => 2
  | .nop | .lit | .pop | .jump | .ret | .wait | .call _ => 0

/-- The right side of an instruction's stack effect, in cells; for LOOP, ZERO_EXIT and WAIT it depends on the
operands. -/
def dataLeft : Instr → Nat
  | .dup | .swap | .divmod => 2
  | .lit | .pop | .fetch | .add | .sub | .mul | .and | .or | .xor | .shl | .shr | .inc | .dec | .inPort => 1
  | .nop | .drop | .push | .loop | .jump | .ret | .ltJump | .gtJump | .neJump | .eqJump | .store | .zeroExit
  | .outPort | .wait | .call _ => 0

/-- The instruction takes two cells, `b` on top of `a`, and leaves one that is related to them, changing nothing else; on
fewer than two cells it raises StackFault (`43_alu.md` R160). -/
def TwoToOne (i : Instr) (rel : Cell → Cell → Cell → Prop) : Prop :=
  (∀ (s : State) (a b : Cell) (rest : List Cell), s.dstack = b :: a :: rest → s.dstack.length ≤ s.params.dsCap →
    ∃ c, rel a b c ∧ exec i s = .next { s with dstack := c :: rest }) ∧
  (∀ s : State, s.dstack.length < 2 → exec i s = .fault .stackFault)

/-- The instruction takes two cells, `b` on top of `a`, and branches to its operand cell's address when they are related,
else passes the operand cell, changing nothing else; on fewer than two cells it raises StackFault, and when it branches
with its operand cell outside memory OutOfBounds (`41_control.md` R130). -/
def BranchesWhen (i : Instr) (taken : Cell → Cell → Prop) : Prop :=
  (∀ (s : State) (a b : Cell) (rest : List Cell), s.dstack = b :: a :: rest →
    (s.InBounds (s.ip + 1#32) → taken a b →
      exec i s = .next { s with dstack := rest, ip := s.mem.read (s.ip + 1#32).toNat - 1#32 }) ∧
    (s.InBounds (s.ip + 1#32) → ¬ taken a b → exec i s = .next { s with dstack := rest, ip := s.ip + 1#32 }) ∧
    (¬ s.InBounds (s.ip + 1#32) → taken a b → exec i s = .fault .outOfBounds)) ∧
  (∀ s : State, s.dstack.length < 2 → exec i s = .fault .stackFault)

/-- The request a pass would service, by the port it is posted on (`44_io.md` R193); none if port 0 is not 0 or nothing
is posted. -/
def posted (s : State) : Option (Fin 12) :=
  if s.port 0 ≠ 0#32 then none
  else if s.port 1 = 1#32 then some 1
  else if s.port 2 = 1#32 then some 2
  else if s.port 4 ≠ 0#32 then some 4
  else if (s.port 5).toInt < 0 then some 5
  else none

/-- The arguments of a storage request are taken: `args`, leaving `l` on the data stack, for whatever comes next
(`44_io.md` R197). -/
def TakesArgs (steps : List ArgStep) (s : State) (args : List DevArg) (l : List Cell) : Prop :=
  ∀ k, takeArgs steps s k = k args (s.setData l)

/-- Taking the arguments of a storage request fails: too few cells, or a string outside memory (`44_io.md` R197). -/
def ArgsFail (steps : List ArgStep) (s : State) (f : Fault) : Prop := ∀ k, takeArgs steps s k = .fault f

/-- The state in which a held WAIT leaves the machine before the closing increment (`44_io.md` R201; log entry 6). -/
def State.heldAt (s : State) : State := { s with ip := s.ip - 1#32, draws := s.draws + 1 }

end Sys2Proof.Machine
end

