-- ==== Sys2Proof/Certificates/Slice0/Obligations.lean ====
section
/-! DEFINITION. The statements for the provers. -/

open Sys2Proof Sys2Proof.Machine

/-! ### Encoding and dispatch -/

/-- The cells of any sequence of well-formed instructions, operands at every value, decode to that sequence, under every
valid opcode map; the spec's map is its own choice (decision D1). -/
def Obligations.EncodedSequenceDecodes : Prop :=
  ∀ map : List Instr, validOpcodeMap map = true →
    ∀ cs : List Code, (∀ c ∈ cs, c.wf = true) → decodeAll cs.length (encodeAll cs map) map = .ok cs

/-- What decodes is well formed and encodes to the very cells it was read from, under every valid opcode map
(decision D1). -/
def Obligations.DecodedCellsReencode : Prop :=
  ∀ map : List Instr, validOpcodeMap map = true →
    ∀ (ws rest : List Cell) (c : Code), decode ws map = .ok (c, rest) → c.wf = true ∧ c.encode map ++ rest = ws

/-- R76: from 0 to 30 the primitive of the machine's opcode map, otherwise the implicit call of the cell itself. -/
def Obligations.EveryCellDispatches : Prop :=
  ∀ (s : State) (op : Cell), validOpcodeMap s.params.opcodeMap = true →
    (0 ≤ op.toInt ∧ op.toInt ≤ 30 →
      s.params.opcodeMap[op.toNat]? = some (s.dispatch op) ∧ ∀ v, s.dispatch op ≠ .call v) ∧
    (op.toInt < 0 ∨ 31 ≤ op.toInt → s.dispatch op = .call op)

/-- Cells written out from the table of `30_encoding.md` R77 (decision D1). -/
def Obligations.SpecOpcodeCellsDecode : Prop :=
  decodeOp 0x00000000#32 = .nop ∧ decodeOp 0x00000001#32 = .lit ∧ decodeOp 0x0000000A#32 = .ltJump ∧
  decodeOp 0x0000000F#32 = .store ∧ decodeOp 0x00000013#32 = .divmod ∧ decodeOp 0x00000019#32 = .zeroExit ∧
  decodeOp 0x0000001E#32 = .wait ∧ decodeOp 0x0000001F#32 = .call 0x0000001F#32 ∧
  decodeOp 0xFFFFFFFF#32 = .call 0xFFFFFFFF#32

/-- A machine with any valid opcode map, not only the spec's, dispatches an instruction's opcode cell under that map to the
instruction (decision D1 makes the map a parameter). -/
def Obligations.AnyOpcodeMapRoundTrips : Prop :=
  ∀ s : State, validOpcodeMap s.params.opcodeMap = true →
    ∀ i : Instr, i.wf = true → s.dispatch (encodeWith s.params.opcodeMap i) = i

/-! ### The step cycle, halting and faults -/

/-- One step of a running machine that is not halted (`30_encoding.md` R75). The signed halt test, and that a negative `ip`
passes it and faults on the fetch, are decision D21 (R86, R30; log entry 18). -/
def Obligations.StepRunsFetchedInstruction : Prop :=
  ∀ s : State, s.status = .running → s.ip.toInt < s.params.memCells →
    (0 ≤ s.ip.toInt →
      step s = match exec (s.dispatch (s.mem.read s.ip.toNat)) s with
        | .next t => .next { t with ip := t.ip + 1#32 }
        | .fault k => .fault k
        | .refused r => .refused r) ∧
    (s.ip.toInt < 0 → step s = .fault .outOfBounds)

/-- A machine that is halted (decision D21), faulted (decision D10) or failed to boot (decision D24) takes no step: the
model answers the same state (log entry 15). -/
def Obligations.StoppedMachineKeepsState : Prop :=
  ∀ s : State,
    (s.status = .running → (s.params.memCells : Int) ≤ s.ip.toInt → step s = .next s ∧ s.hostStatus = .halted) ∧
    (∀ k, s.status = .faulted k → step s = .next s ∧ s.hostStatus = .faulted k) ∧
    (s.status = .bootFailed → step s = .next s ∧ s.hostStatus = .bootFailed)

/-- A faulting step leaves the machine FAULTED with the kind, whatever else it leaves (decision D10). A further step is
none (log entry 15), an image load has no result (log entry 21), and a reset, which is the initialisation whenever it
comes (decision D18), makes the machine run again; that the status is then `running` is log entry 3. -/
def Obligations.FaultEndsRunUntilReset : Prop :=
  ∀ (s : State) (k : Fault), step s = .fault k →
    ∃ t, s.runStep = some t ∧ t.hostStatus = .faulted k ∧ t.runStep = some t ∧
      (∀ file, t.loadImage file = none) ∧ t.hostReset.status = .running ∧ t.hostReset.params = s.params

/-- Where a refusal can come from: a WAIT that services a code for which the request table has no entry (`44_io.md` R205,
decision D16, log entry 10). A code on port 4 above 2 is such a code, also where port 5 holds a request too
(decision D14). -/
def Obligations.OnlyUndefinedRequestsAreRefused : Prop :=
  (∀ (i : Instr) (s : State) (r : Refusal), exec i s = .refused r →
    i = .wait ∧
    ((posted s = some 4 ∧ r = .undefinedStorageCode (s.port 4) ∧
        s.port 4 ≠ 1#32 ∧ s.port 4 ≠ 2#32 ∧ s.port 4 ≠ -1#32 ∧
        ((s.port 4).toInt < 0 → Config.port4Table (s.port 4) = none)) ∨
     (posted s = some 5 ∧ r = .undefinedQueryCode (s.port 5) ∧ s.port 5 ≠ -5#32 ∧ s.port 5 ≠ -9#32 ∧
        Config.port5Table (s.port 5) = none))) ∧
  (∀ s : State, posted s = some 4 → 2 < (s.port 4).toInt →
    exec .wait s = .refused (.undefinedStorageCode (s.port 4)))

/-- With fewer cells on the data stack than the instruction's first pops and peeks need, StackFault is the fault, whatever
else is wrong (decision D11 for the order). -/
def Obligations.DataUnderflowRaisesStackFault : Prop :=
  ∀ (i : Instr) (s : State), s.dstack.length < dataTaken i → exec i s = .fault .stackFault

/-- ArithmeticFault is raised by DIVMOD with divisor 0 and by nothing else. That dividing MIN by -1 does not raise it is
decision D3; that DIVMOD of a single 0 raises StackFault instead is decision D11 (`43_alu.md` R164, `60_exceptions.md`
R237). -/
def Obligations.ArithmeticFaultOnlyFromZeroDivisor : Prop :=
  ∀ (i : Instr) (s : State),
    exec i s = .fault .arithmeticFault ↔ i = .divmod ∧ ∃ a rest, s.dstack = 0#32 :: a :: rest

/-! ### Reset, invariants, ownership -/

/-- The state after reset. `ip` = 0 is decision D8 and the ports at 0 decision D9; the status is the model's (log entry 3)
and so are the sizes of the named state (log entry 1). That a reset at any time is the same initialisation is decision
D18; that it leaves the model's own two fields alone is log entries 4 and 5. -/
def Obligations.ResetClearsTheMachine : Prop :=
  ∀ p : Params,
    (∀ a, (State.resetOf p).mem.read a = 0#32) ∧ (State.resetOf p).dstack = [] ∧ (State.resetOf p).astack = [] ∧
    (State.resetOf p).ip = 0#32 ∧ (∀ i : Fin 12, (State.resetOf p).port i = 0#32) ∧
    (State.resetOf p).status = .running ∧ (State.resetOf p).params = p ∧
    (∀ s : State, s.hostReset = { State.resetOf s.params with calls := s.calls, draws := s.draws }) ∧
    State.reset = State.resetOf (Params.ofSizes 1000000 128 1024)

/-- The reset state of every machine with parameters in range meets both invariants, that of the named machine (its sizes
are log entry 1) among them. Port 0 at 0 is decision D9. -/
def Obligations.ResetMeetsInvariants : Prop :=
  (∀ p : Params, p.WellFormed → (State.resetOf p).Inv ∧ (State.resetOf p).Handshake) ∧
  State.reset.Inv ∧ State.reset.Handshake

/-- Every step keeps the parameters in range, memory in canonical form and inside [0, N), and both stacks within their
capacities. -/
def Obligations.EveryStepKeepsInvariant : Prop :=
  ∀ s t : State, s.Inv → step s = .next t → t.Inv

/-- Every step keeps port 0 at 0 or 1 (`10_state.md` R33). -/
def Obligations.EveryStepKeepsHandshake : Prop :=
  ∀ s t : State, s.Handshake → step s = .next t → t.Handshake

/-- Who may change what (`10_state.md` R46): the frame of every instruction but for the contents of the data stack. Memory
changes by STORE only, the address stack by PUSH, POP, RETURN, ZERO_EXIT and calls, the ports by IN, OUT and WAIT, `ip` by
LIT, the transfers and WAIT; devices are reached by WAIT only; nothing changes the parameters or the run status. -/
def Obligations.InstructionsChangeOnlyWhatTheyOwn : Prop :=
  ∀ (i : Instr) (s t : State), exec i s = .next t →
    t.params = s.params ∧ t.status = s.status ∧
    (i ≠ .store → ∀ a, t.mem.read a = s.mem.read a) ∧
    (i ∉ [.push, .pop, .ret, .zeroExit] → (∀ v, i ≠ .call v) → t.astack = s.astack) ∧
    (i ∉ [.inPort, .outPort, .wait] → ∀ j, t.port j = s.port j) ∧
    (i ∉ [.lit, .loop, .jump, .ret, .ltJump, .gtJump, .neJump, .eqJump, .zeroExit, .wait] → (∀ v, i ≠ .call v) →
      t.ip = s.ip) ∧
    (i ≠ .wait → t.calls = s.calls ∧ t.draws = s.draws)

/-- The cells of the data stack below an instruction's operands are unchanged, and its depth changes by its stack effect.
LOOP, ZERO_EXIT and WAIT have statements of their own. -/
def Obligations.DataStackBelowOperandsUnchanged : Prop :=
  ∀ (i : Instr) (s t : State), i ∉ [.loop, .zeroExit, .wait] → exec i s = .next t →
    t.dstack.drop (dataLeft i) = s.dstack.drop (dataTaken i) ∧
    t.dstack.length + dataTaken i = s.dstack.length + dataLeft i

/-! ### Stack and literal instructions -/

/-- R100. -/
def Obligations.NopHasNoEffect : Prop :=
  (∀ s : State, validOpcodeMap s.params.opcodeMap = true → s.dispatch 0#32 = .nop) ∧
  (∀ s : State, exec .nop s = .next s) ∧
  ∀ (p : Params) (a : Nat), validOpcodeMap p.opcodeMap = true →
    (State.resetOf p).dispatch ((State.resetOf p).mem.read a) = .nop

/-- R101. -/
def Obligations.LitPushesOperandCell : Prop :=
  ∀ s : State,
    (s.InBounds (s.ip + 1#32) → s.dstack.length < s.params.dsCap →
      exec .lit s =
        .next { s with ip := s.ip + 1#32, dstack := s.mem.read (s.ip + 1#32).toNat :: s.dstack }) ∧
    (¬ s.InBounds (s.ip + 1#32) → s.dstack.length < s.params.dsCap → exec .lit s = .fault .outOfBounds) ∧
    (s.InBounds (s.ip + 1#32) → s.params.dsCap ≤ s.dstack.length → exec .lit s = .fault .stackFault)

/-- R102. -/
def Obligations.DupCopiesTop : Prop :=
  ∀ (s : State),
    (∀ b rest, s.dstack = b :: rest → s.dstack.length < s.params.dsCap →
      exec .dup s = .next { s with dstack := b :: b :: rest }) ∧
    (s.dstack = [] → exec .dup s = .fault .stackFault) ∧
    (s.params.dsCap ≤ s.dstack.length → exec .dup s = .fault .stackFault)

/-- R103. -/
def Obligations.DropRemovesTop : Prop :=
  ∀ s : State,
    (∀ b rest, s.dstack = b :: rest → exec .drop s = .next { s with dstack := rest }) ∧
    (s.dstack = [] → exec .drop s = .fault .stackFault)

/-- R104. -/
def Obligations.SwapExchangesTopTwo : Prop :=
  ∀ s : State,
    (∀ a b rest, s.dstack = b :: a :: rest → s.dstack.length ≤ s.params.dsCap →
      exec .swap s = .next { s with dstack := a :: b :: rest }) ∧
    (s.dstack.length < 2 → exec .swap s = .fault .stackFault)

/-- R105, with what it says of a pushed cell that a RETURN or a taken ZERO_EXIT meets. -/
def Obligations.PushMovesToAddressStack : Prop :=
  ∀ s : State,
    (∀ b rest, s.dstack = b :: rest → s.astack.length < s.params.asCap →
      exec .push s = .next { s with dstack := rest, astack := b :: s.astack }) ∧
    (s.dstack = [] → exec .push s = .fault .stackFault) ∧
    (s.params.asCap ≤ s.astack.length → exec .push s = .fault .stackFault) ∧
    (∀ b rest a, s.dstack = b :: rest → s.astack.length < s.params.asCap → landing s (b + 1#32) = some a →
      ∃ t, exec .push s = .next t ∧ exec .ret t = .next { s with dstack := rest, ip := a - 1#32 }) ∧
    (∀ b rest, s.dstack = b :: 0#32 :: rest → s.astack.length < s.params.asCap →
      ∃ t, exec .push s = .next t ∧ exec .zeroExit t = .next { s with dstack := rest, ip := b })

/-- R106, with its property that PUSH then POP gives the state back. -/
def Obligations.PopMovesToDataStack : Prop :=
  ∀ s : State,
    (∀ b rest, s.astack = b :: rest → s.dstack.length < s.params.dsCap →
      exec .pop s = .next { s with astack := rest, dstack := b :: s.dstack }) ∧
    (s.astack = [] → exec .pop s = .fault .stackFault) ∧
    (s.params.dsCap ≤ s.dstack.length → exec .pop s = .fault .stackFault) ∧
    (s.dstack ≠ [] → s.dstack.length ≤ s.params.dsCap → s.astack.length < s.params.asCap →
      ∃ t, exec .push s = .next t ∧ exec .pop t = .next s)

/-! ### Control transfer -/

/-- The trailing-NOP skip goes where `landing` says, or raises OutOfBounds (`41_control.md` R120). -/
def Obligations.SkipPassesAtMostTwoZeroCells : Prop :=
  ∀ (s : State) (k : State → Out),
    nopSkip s k = match landing s (s.ip + 1#32) with
      | some a => k { s with ip := a - 1#32 }
      | none => .fault .outOfBounds

/-- LOOP. That the counter wraps is decision D2, that the operand cell is passed and not read when the branch is not taken
decision D13. -/
def Obligations.LoopCountsDown : Prop :=
  ∀ (s : State) (n : Cell) (rest : List Cell), s.dstack = n :: rest → s.dstack.length ≤ s.params.dsCap →
    (0 < (n - 1#32).toInt → s.InBounds (s.ip + 1#32) →
      exec .loop s =
        .next { s with dstack := (n - 1#32) :: rest, ip := s.mem.read (s.ip + 1#32).toNat - 1#32 }) ∧
    (0 < (n - 1#32).toInt → ¬ s.InBounds (s.ip + 1#32) → exec .loop s = .fault .outOfBounds) ∧
    ((n - 1#32).toInt ≤ 0 → exec .loop s = .next { s with dstack := rest, ip := s.ip + 1#32 })

/-- R122. -/
def Obligations.JumpLandsOnOperand : Prop :=
  ∀ s : State,
    (∀ a, s.InBounds (s.ip + 1#32) → landing s (s.mem.read (s.ip + 1#32).toNat) = some a →
      exec .jump s = .next { s with ip := a - 1#32 }) ∧
    (s.InBounds (s.ip + 1#32) → landing s (s.mem.read (s.ip + 1#32).toNat) = none →
      exec .jump s = .fault .outOfBounds) ∧
    (¬ s.InBounds (s.ip + 1#32) → exec .jump s = .fault .outOfBounds)

/-- R123. -/
def Obligations.ReturnResumesAfterCaller : Prop :=
  ∀ s : State,
    (∀ r rest a, s.astack = r :: rest → landing s (r + 1#32) = some a →
      exec .ret s = .next { s with astack := rest, ip := a - 1#32 }) ∧
    (∀ r rest, s.astack = r :: rest → landing s (r + 1#32) = none → exec .ret s = .fault .outOfBounds) ∧
    (s.astack = [] → exec .ret s = .fault .stackFault)

/-- R124 to R127: the four conditional jumps. -/
def Obligations.ConditionalJumpsCompareSigned : Prop :=
  BranchesWhen .ltJump (fun a b => a.toInt < b.toInt) ∧ BranchesWhen .gtJump (fun a b => a.toInt > b.toInt) ∧
  BranchesWhen .neJump (fun a b => a ≠ b) ∧ BranchesWhen .eqJump (fun a b => a = b)

/-- A conditional jump that is not taken does not read its operand cell, so it completes also where that cell lies outside
memory (decision D13). -/
def Obligations.UntakenBranchReadsNoOperand : Prop :=
  ∀ (s : State) (a b : Cell) (rest : List Cell), ¬ s.InBounds (s.ip + 1#32) → s.dstack = b :: a :: rest →
    (b.toInt ≤ a.toInt → exec .ltJump s = .next { s with dstack := rest, ip := s.ip + 1#32 }) ∧
    (a.toInt ≤ b.toInt → exec .gtJump s = .next { s with dstack := rest, ip := s.ip + 1#32 }) ∧
    (a = b → exec .neJump s = .next { s with dstack := rest, ip := s.ip + 1#32 }) ∧
    (a ≠ b → exec .eqJump s = .next { s with dstack := rest, ip := s.ip + 1#32 })

/-- R128. -/
def Obligations.ZeroExitReturnsEarly : Prop :=
  ∀ s : State,
    (∀ b rest, s.dstack = b :: rest → b ≠ 0#32 → exec .zeroExit s = .next s) ∧
    (∀ rest r callers, s.dstack = 0#32 :: rest → s.astack = r :: callers →
      exec .zeroExit s = .next { s with dstack := rest, astack := callers, ip := r }) ∧
    (∀ rest, s.dstack = 0#32 :: rest → s.astack = [] → exec .zeroExit s = .fault .stackFault) ∧
    (s.dstack = [] → exec .zeroExit s = .fault .stackFault)

/-- R129, with the matching RETURN. -/
def Obligations.CallPushesItsOwnAddress : Prop :=
  ∀ (s : State) (v : Cell),
    (∀ a, s.astack.length < s.params.asCap → landing s v = some a →
      exec (.call v) s = .next { s with astack := s.ip :: s.astack, ip := a - 1#32 }) ∧
    (s.astack.length < s.params.asCap → landing s v = none → exec (.call v) s = .fault .outOfBounds) ∧
    (s.params.asCap ≤ s.astack.length → landing s v ≠ none → exec (.call v) s = .fault .stackFault) ∧
    (∀ a c, s.astack.length < s.params.asCap → landing s v = some a → landing s (s.ip + 1#32) = some c →
      ∃ t, exec (.call v) s = .next t ∧ exec .ret t = .next { s with ip := c - 1#32 }) ∧
    (v.toInt < 0 ∨ 30 < v.toInt → s.dispatch v = .call v)

/-- Which fault a LIT and a call raise when two are possible (decision D11): LIT reads its operand cell before it pushes,
a call pushes before the skip reads. -/
def Obligations.FirstFailureGivesTheFault : Prop :=
  ∀ s : State,
    (¬ s.InBounds (s.ip + 1#32) → s.params.dsCap ≤ s.dstack.length → exec .lit s = .fault .outOfBounds) ∧
    (∀ v, s.params.asCap ≤ s.astack.length → landing s v = none → exec (.call v) s = .fault .stackFault)

/-! ### Memory -/

/-- R150. -/
def Obligations.FetchReplacesAddressByCell : Prop :=
  ∀ s : State,
    (∀ addr rest, s.dstack = addr :: rest → s.dstack.length ≤ s.params.dsCap →
      0 ≤ addr.toInt → addr.toInt < s.params.memCells →
      exec .fetch s = .next { s with dstack := s.mem.read addr.toNat :: rest }) ∧
    (∀ addr rest, s.dstack = addr :: rest → addr.toInt < 0 ∨ (s.params.memCells : Int) ≤ addr.toInt →
      exec .fetch s = .fault .outOfBounds) ∧
    (s.dstack = [] → exec .fetch s = .fault .stackFault)

/-- R151: the cell at the popped address takes the popped value, every other cell reads as before. -/
def Obligations.StoreWritesOneCell : Prop :=
  ∀ s : State,
    (∀ addr value rest, s.dstack = addr :: value :: rest → s.mem.wf →
      0 ≤ addr.toInt → addr.toInt < s.params.memCells →
      ∃ m, exec .store s = .next { s with dstack := rest, mem := m } ∧ m.wf ∧ m.read addr.toNat = value ∧
        ∀ a, a ≠ addr.toNat → m.read a = s.mem.read a) ∧
    (∀ addr value rest, s.dstack = addr :: value :: rest →
      addr.toInt < 0 ∨ (s.params.memCells : Int) ≤ addr.toInt → exec .store s = .fault .outOfBounds) ∧
    (s.dstack.length < 2 → exec .store s = .fault .stackFault)

/-- A write (`20_memory.md` R54) inside memory sets that cell and changes nothing else; outside it raises OutOfBounds. -/
def Obligations.MemoryWriteSetsOneCell : Prop :=
  ∀ (s : State) (addr v : Cell) (k : State → Out), s.mem.wf →
    (0 ≤ addr.toInt → addr.toInt < s.params.memCells →
      ∃ m, memWrite s addr v k = k { s with mem := m } ∧
        ∀ a, m.read a = if a = addr.toNat then v else s.mem.read a) ∧
    (addr.toInt < 0 ∨ (s.params.memCells : Int) ≤ addr.toInt → memWrite s addr v k = .fault .outOfBounds)

/-- A STORE into the next cell is seen by the next step's fetch (`20_memory.md` R62, an inference the spec marks as its
own). -/
def Obligations.StoreIsSeenByNextFetch : Prop :=
  ∀ (s : State) (value : Cell) (rest : List Cell), s.mem.wf → s.status = .running →
    s.InBounds s.ip → s.InBounds (s.ip + 1#32) → s.dispatch (s.mem.read s.ip.toNat) = .store →
    s.dstack = (s.ip + 1#32) :: value :: rest →
    ∃ t, step s = .next t ∧ t.ip = s.ip + 1#32 ∧ step t = closeStep (exec (s.dispatch value) t)

/-- The CORE's part of reading a 0-terminated string (`20_memory.md` R63). -/
def Obligations.StringReadStopsAtZero : Prop :=
  ∀ (s : State) (addr : Cell) (k : List Cell → Out),
    (∀ n, s.InBounds addr → addr.toNat + n < s.params.memCells →
      (∀ j < n, s.mem.read (addr.toNat + j) ≠ 0#32) → s.mem.read (addr.toNat + n) = 0#32 →
      readString s addr k = k ((List.range n).map fun j => s.mem.read (addr.toNat + j))) ∧
    (s.InBounds addr → (∀ a, addr.toNat ≤ a → a < s.params.memCells → s.mem.read a ≠ 0#32) →
      readString s addr k = .fault .outOfBounds) ∧
    (¬ s.InBounds addr → readString s addr k = .fault .outOfBounds)

/-! ### ALU -/

/-- ADD, SUB and MUL give the one cell congruent to the exact result modulo 2^32 (decision D2). -/
def Obligations.AddSubMulWrap : Prop :=
  TwoToOne .add (fun a b c => c.toInt ≡ a.toInt + b.toInt [ZMOD 2 ^ 32]) ∧
  TwoToOne .sub (fun a b c => c.toInt ≡ a.toInt - b.toInt [ZMOD 2 ^ 32]) ∧
  TwoToOne .mul (fun a b c => c.toInt ≡ a.toInt * b.toInt [ZMOD 2 ^ 32])

/-- INC and DEC (decision D2): by one, but for the one operand that wraps. -/
def Obligations.IncDecWrap : Prop :=
  ∀ (s : State) (b : Cell) (rest : List Cell), s.dstack = b :: rest → s.dstack.length ≤ s.params.dsCap →
    (∃ c, exec .inc s = .next { s with dstack := c :: rest } ∧
      c.toInt = if b.toInt = 2 ^ 31 - 1 then -2 ^ 31 else b.toInt + 1) ∧
    (∃ c, exec .dec s = .next { s with dstack := c :: rest } ∧
      c.toInt = if b.toInt = -2 ^ 31 then 2 ^ 31 - 1 else b.toInt - 1)

/-- R165, R166, R167, bit by bit. -/
def Obligations.BitwiseInstructions : Prop :=
  TwoToOne .and (fun a b c => ∀ j, c.getLsbD j = (a.getLsbD j && b.getLsbD j)) ∧
  TwoToOne .or (fun a b c => ∀ j, c.getLsbD j = (a.getLsbD j || b.getLsbD j)) ∧
  TwoToOne .xor (fun a b c => ∀ j, c.getLsbD j = (a.getLsbD j ^^ b.getLsbD j))

/-- The shift laws (`43_alu.md` R174): bit by bit, and SHR as the floor of a division. That the second-popped cell is
shifted and that the count is the low five bits of the other is decision D4 (log entry 14). -/
def Obligations.ShiftLaws : Prop :=
  TwoToOne .shl (fun a b c => ∀ j < 32,
    c.getLsbD j = (decide (b.toNat % 32 ≤ j) && a.getLsbD (j - b.toNat % 32))) ∧
  TwoToOne .shr (fun a b c =>
    (∀ j < 32, c.getLsbD j = if j + b.toNat % 32 < 32 then a.getLsbD (j + b.toNat % 32) else a.getLsbD 31) ∧
    c.toInt = a.toInt / 2 ^ (b.toNat % 32))

/-- DIVMOD: truncating division, quotient on top. MIN by -1 gives quotient MIN and remainder 0 (decision D3). -/
def Obligations.DivmodTruncates : Prop :=
  ∀ (s : State) (a b : Cell) (rest : List Cell), s.dstack = b :: a :: rest → s.dstack.length ≤ s.params.dsCap →
    (b ≠ 0#32 →
      ∃ q r, exec .divmod s = .next { s with dstack := q :: r :: rest } ∧
        |r.toInt| < |b.toInt| ∧ (r.toInt = 0 ∨ r.toInt.sign = a.toInt.sign) ∧
        (¬ (a = minCell ∧ b = -1#32) → a.toInt = b.toInt * q.toInt + r.toInt) ∧
        (a = minCell → b = -1#32 → q = minCell ∧ r = 0#32)) ∧
    (b = 0#32 → exec .divmod s = .fault .arithmeticFault)

/-! ### Ports -/

/-- IN: a consuming read. That a bad index raises OutOfBounds is decision D12. -/
def Obligations.InReadsAndZeroesPort : Prop :=
  ∀ s : State,
    (∀ x rest, ∀ i : Fin 12, s.dstack = x :: rest → s.dstack.length ≤ s.params.dsCap → x.toInt = (i.val : Int) →
      exec .inPort s = .next { s with dstack := s.port i :: rest, ports := s.ports.set i 0#32 }) ∧
    (∀ x rest, s.dstack = x :: rest → x.toInt < 0 ∨ 11 < x.toInt → exec .inPort s = .fault .outOfBounds) ∧
    (s.dstack = [] → exec .inPort s = .fault .stackFault)

/-- OUT: the value goes to the port, then port 0 is cleared. That a bad index raises OutOfBounds is decision D12. -/
def Obligations.OutWritesPortAndClearsHandshake : Prop :=
  ∀ s : State,
    (∀ x y rest, ∀ i : Fin 12, s.dstack = x :: y :: rest → x.toInt = (i.val : Int) →
      exec .outPort s = .next { s with dstack := rest, ports := (s.ports.set i y).set 0 0#32 }) ∧
    (∀ x y rest, s.dstack = x :: y :: rest → x.toInt < 0 ∨ 11 < x.toInt → exec .outPort s = .fault .outOfBounds) ∧
    (s.dstack.length < 2 → exec .outPort s = .fault .stackFault)

/-- R194: a pass that finds port 0 nonzero does nothing. -/
def Obligations.BusyPassDoesNothing : Prop :=
  ∀ s : State, s.port 0 ≠ 0#32 → exec .wait s = .next s

/-- A WAIT with nothing posted does nothing and does not wait; which values are requests and their order is that of the
pass (decision D14). -/
def Obligations.IdlePassDoesNothing : Prop :=
  ∀ s : State, s.port 1 ≠ 1#32 → s.port 2 ≠ 1#32 → s.port 4 = 0#32 → 0 ≤ (s.port 5).toInt → exec .wait s = .next s

/-- The input request: port 1 gets a byte or `INPUT_EOF` (decisions D15, D26) once the device answers; until then the
machine is held and the step changes nothing but the model's own count (decision D23, log entry 6). A request on a later
port is left alone (decision D14). -/
def Obligations.InputRequestDeliversByteOrHolds : Prop :=
  ∀ s : State, s.port 0 = 0#32 → s.port 1 = 1#32 →
    ∃ c, (c = Config.inputEof ∨ c.toNat < 256) ∧
      (exec .wait s =
        if Config.answered s.draws then
          .next { s with
            ports := (s.ports.set 1 c).set 0 1#32, calls := .inputRead :: s.calls, draws := s.draws + 2 }
        else .next s.heldAt) ∧
      (s.status = .running → s.InBounds s.ip → s.dispatch (s.mem.read s.ip.toNat) = .wait →
        step s =
          if Config.answered s.draws then
            .next { s with
              ip := s.ip + 1#32, ports := (s.ports.set 1 c).set 0 1#32, calls := .inputRead :: s.calls,
              draws := s.draws + 2 }
          else .next { s with draws := s.draws + 1 })

/-- The console request: one cell is popped and handed to the device whole (decision D25), port 2 is cleared, port 0 set.
It is serviced when port 1 holds no request (decision D14). -/
def Obligations.ConsoleRequestEmitsTop : Prop :=
  ∀ s : State, s.port 0 = 0#32 → s.port 1 ≠ 1#32 → s.port 2 = 1#32 →
    (∀ c rest, s.dstack = c :: rest →
      exec .wait s = .next { s with
        dstack := rest, ports := (s.ports.set 2 0#32).set 0 1#32,
        calls := (if c.toInt < 0 then .consoleClear else .consoleEmit c) :: s.calls }) ∧
    (s.dstack = [] → exec .wait s = .fault .stackFault)

/-- Port 4 code 1: the device gets all of memory, port 4 becomes 0 (decision D17), port 0 becomes 1. A request on port 5 is
left alone (decision D14). -/
def Obligations.SaveRequestHandsOverMemory : Prop :=
  ∀ s : State, posted s = some 4 → s.port 4 = 1#32 →
    exec .wait s = .next { s with
      ports := (s.ports.set 4 0#32).set 0 1#32, calls := .storage 1#32 [.image s.mem] :: s.calls }

/-- Port 4 codes 2 and -1. Code 2 takes a name, code -1 a mode and a path; where they come from and their order are open
(log entry 9). If taking them fails, the WAIT is that fault; else the device gets exactly those arguments, the data stack
is what taking them left, and the response is 0 for code 2 (decision D17), a positive slot id or a failure sentinel for
code -1 (log entry 8). A request on port 5 is left alone (decision D14). -/
def Obligations.NameAndOpenRequestsRespond : Prop :=
  ∀ s : State, posted s = some 4 → s.port 4 = 2#32 ∨ s.port 4 = -1#32 →
    let steps := if s.port 4 = 2#32 then [.string Config.inputNameSource] else openArgs
    (∃ f, ArgsFail steps s f ∧ exec .wait s = .fault f) ∨
    ∃ args l r n, TakesArgs steps s args l ∧ l <:+ s.dstack ∧
      (s.port 4 = 2#32 → r = 0#32) ∧ (0 < r.toInt ∨ r = 0#32 ∨ r = -1#32) ∧
      exec .wait s = .next { s with
        dstack := l, ports := (s.ports.set 4 r).set 0 1#32,
        calls := .storage (s.port 4) args :: s.calls, draws := n }

/-- Any other negative port 4 code: refused if the request table does not define it (decision D16, log entry 10). Else, if
taking the arguments of its entry fails, the WAIT is that fault; if it is a read and the device has not answered, the
machine is held (decision D23, log entry 6); else the device gets exactly those arguments, the data stack is what taking
them left, and the device's answer is in port 4. A request on port 5 is left alone (decision D14). -/
def Obligations.FileRequestsFollowTheTable : Prop :=
  ∀ s : State, posted s = some 4 → (s.port 4).toInt < 0 → s.port 4 ≠ -1#32 →
    match Config.port4Table (s.port 4) with
    | none => exec .wait s = .refused (.undefinedStorageCode (s.port 4))
    | some op =>
      (∃ f, ArgsFail op.args s f ∧ exec .wait s = .fault f) ∨
      ∃ args l, TakesArgs op.args s args l ∧ l <:+ s.dstack ∧
        if op.kind = .readByte ∧ Config.answered s.draws = false then exec .wait s = .next s.heldAt
        else ∃ r n, exec .wait s = .next { s with
          dstack := l, ports := (s.ports.set 4 r).set 0 1#32,
          calls := .storage (s.port 4) args :: s.calls, draws := n }

/-- Port 5 code -5: the data-stack depth at the time of the pass. A depth above the cell range has no stated answer
(log entry 11). -/
def Obligations.DepthQueryAnswersDepth : Prop :=
  ∀ s : State, posted s = some 5 → s.port 5 = -5#32 → s.dstack.length < 2 ^ 31 →
    ∃ c : Cell, c.toInt = (s.dstack.length : Int) ∧
      exec .wait s = .next { s with ports := (s.ports.set 5 c).set 0 1#32 }

/-- Any other negative port 5 code: refused if the request table does not define it (decision D16), else the fact it
names is in port 5 and nothing is popped. A count above the cell range has no stated answer (log entry 11). -/
def Obligations.OtherQueriesFollowTheTable : Prop :=
  ∀ s : State, posted s = some 5 → s.port 5 ≠ -5#32 → s.port 5 ≠ -9#32 →
    match Config.port5Table (s.port 5) with
    | none => exec .wait s = .refused (.undefinedQueryCode (s.port 5))
    | some fact =>
      ∃ (c : Cell) (n : Nat) (calls : List DevCall),
        exec .wait s = .next { s with ports := (s.ports.set 5 c).set 0 1#32, calls := calls, draws := n } ∧
        (fact = .memorySize → s.params.WellFormed → c.toInt = s.params.memCells) ∧
        (fact = .addressDepth → s.astack.length < 2 ^ 31 → c.toInt = s.astack.length) ∧
        (fact = .cellWidth → c = 32#32) ∧ (∀ v, fact = .capability v → c = v) ∧
        calls = if fact = .wallClock then .clock :: s.calls else s.calls

/-- Port 5 code -9: whatever it leaves in port 5 (decision D17), the step ends with `ip` = N + 1 and the machine is
halted. -/
def Obligations.HaltQueryStopsTheMachine : Prop :=
  ∀ s : State, posted s = some 5 → s.port 5 = -9#32 → s.params.WellFormed →
    ∃ n v : Cell, n.toInt = s.params.memCells ∧ (n + 1#32).toInt = s.params.memCells + 1 ∧
      exec .wait s = .next { s with ip := n, ports := (s.ports.set 5 v).set 0 1#32, draws := s.draws + 1 } ∧
      ∀ t : State, t.status = .running → t.params = s.params → t.ip = n + 1#32 → t.hostStatus = .halted

/-- A service ends with port 0 at 1, a pass that services nothing leaves port 0 as it found it (`44_io.md` R199). A pass held
on an input or file read has not ended (decision D23, log entry 6). Which of several requests is the posted one is decision
D14. -/
def Obligations.ServiceEndsWithHandshakeSet : Prop :=
  ∀ s t : State, exec .wait s = .next t →
    (posted s ≠ none → (t = s.heldAt ∧ (posted s = some 1 ∨ posted s = some 4)) ∨ t.port 0 = 1#32) ∧
    (posted s = none → t.port 0 = s.port 0)

/-- The frame of WAIT: a pass writes no memory, no address stack and no port without a role, pushes nothing, touches of
the ports only 0 and the one serviced (one request a pass: decision D14), and moves `ip` only for port 5 code -9 or when
held. -/
def Obligations.PassTouchesOneRequestOnly : Prop :=
  ∀ s t : State, exec .wait s = .next t →
    (∀ a, t.mem.read a = s.mem.read a) ∧ t.astack = s.astack ∧ t.dstack <:+ s.dstack ∧
    t.params = s.params ∧ t.status = s.status ∧
    (∀ j : Fin 12, j ≠ 0 → posted s ≠ some j → t.port j = s.port j) ∧
    (t.ip = s.ip ∨ t = s.heldAt ∨ (posted s = some 5 ∧ s.port 5 = -9#32))

/-! ### The boot image -/

/-- R67: what the save writes for a cell the load reads back, and so for whole images: loading an image, saving it
unmodified and reloading gives the loaded machine again, for any count of saved cells that covers every nonzero one. The
first two clauses are the byte order: a word of a file is its four bytes, most significant first, and so are the bytes
written for it. -/
def Obligations.ImageRoundTrips : Prop :=
  (∀ b0 b1 b2 b3 : Byte, ∃ v : Cell, imageWords [b0, b1, b2, b3] = some [v] ∧
    v.toNat = b0.toNat * 2 ^ 24 + b1.toNat * 2 ^ 16 + b2.toNat * 2 ^ 8 + b3.toNat) ∧
  (∀ v : Cell, ∃ b0 b1 b2 b3 : Byte, imageBytes [v] = [b0, b1, b2, b3] ∧
    v.toNat = b0.toNat * 2 ^ 24 + b1.toNat * 2 ^ 16 + b2.toNat * 2 ^ 8 + b3.toNat) ∧
  (∀ ws : List Cell, imageWords (imageBytes ws) = some ws) ∧
  (∀ (bs : List Byte) (ws : List Cell), imageWords bs = some ws → imageBytes ws = bs) ∧
  ∀ (p : Params) (ws : List Cell) (count : Nat), ws.length ≤ p.memCells → ws.getD 0 0#32 ≠ 0#32 →
    count ≤ p.memCells → (∀ i, count ≤ i → ws.getD i 0#32 = 0#32) →
    ∃ s, (State.resetOf p).loadImage (some (imageBytes ws)) = some s ∧
      (State.resetOf p).loadImage (some (s.saveImage count)) = some s ∧
      (count = ws.length → s.saveImage count = imageBytes ws)

/-- R45: after the load of an image of L words. -/
def Obligations.LoadPlacesImageWords : Prop :=
  ∀ (p : Params) (ws : List Cell), ws.length ≤ p.memCells → ws.getD 0 0#32 ≠ 0#32 →
    ∃ m, (State.resetOf p).loadImage (some (imageBytes ws)) = some { State.resetOf p with mem := m } ∧
      (∀ i, m.read i = ws.getD i 0#32) ∧ m.wf ∧ (∀ e ∈ m, e.1 < p.memCells)

/-- A load that fails (no file, word 0 zero, too many words, or a partial word: decisions D19, D24) leaves BOOT_FAILED, and
nothing runs: the model's step keeps the state (log entry 15). Only a reset makes a load possible again (log
entry 21). -/
def Obligations.FailedLoadRunsNothing : Prop :=
  ∀ (p : Params) (file : Option (List Byte)),
    (file = none ∨ (∃ bs, file = some bs ∧ bs.length % 4 ≠ 0) ∨
      (∃ ws, file = some (imageBytes ws) ∧ (p.memCells < ws.length ∨ ws.getD 0 0#32 = 0#32))) →
    ∃ t, (State.resetOf p).loadImage file = some t ∧ t.hostStatus = .bootFailed ∧ step t = .next t ∧
      ∀ again, t.loadImage again = none
end

