-- ==== Sys2Proof/Laws/Memory.lean ====
section
/-! SUPPORT. Memory as data: reading after writing, and that every memory operation keeps the canonical form and the
bound on the listed addresses. -/

namespace Sys2Proof.Machine

@[simp] theorem Memory.read_nil (a : Nat) : Memory.read [] a = 0#32 := rfl

/-- An address below every listed one reads as 0. -/
theorem Memory.read_of_lt {m : Memory} {a : Nat} (h : ∀ e ∈ m, a < e.1) : m.read a = 0#32 := by
  induction m with
  | nil => rfl
  | cons e m ih =>
    have := h e (by simp)
    simp [Memory.read, Nat.ne_of_lt this, ih fun e he => h e (by simp [he])]

theorem Memory.wf_nil : Memory.wf [] := by simp [Memory.wf]

theorem Memory.wf_cons {b : Nat} {w : Cell} {m : Memory} :
    Memory.wf ((b, w) :: m) ↔ (∀ e ∈ m, b < e.1) ∧ w ≠ 0#32 ∧ Memory.wf m := by
  simp only [Memory.wf, List.pairwise_cons, List.mem_cons, forall_eq_or_imp]
  tauto

/-- A read after a write: the value written at its address, the old cell elsewhere. -/
theorem Memory.read_write {m : Memory} (hm : m.wf) (a : Nat) (v : Cell) (x : Nat) :
    (m.write a v).read x = if x = a then v else m.read x := by
  induction m with
  | nil => by_cases hv : v = 0#32 <;> by_cases hx : x = a <;> simp [Memory.write, Memory.read, hv, hx]
  | cons e m ih =>
    obtain ⟨b, w⟩ := e
    obtain ⟨hb, -, hm'⟩ := Memory.wf_cons.1 hm
    have zero_at_b : Memory.read m b = 0#32 := Memory.read_of_lt hb
    rcases Nat.lt_trichotomy a b with hab | rfl | hab
    · have zero_at_a : Memory.read m a = 0#32 := Memory.read_of_lt fun e he => lt_trans hab (hb e he)
      by_cases hv : v = 0#32 <;> by_cases hx : x = a <;>
        simp_all [Memory.write, Memory.read, Nat.ne_of_lt hab]
    · by_cases hv : v = 0#32 <;> by_cases hx : x = a <;> simp_all [Memory.write, Memory.read]
    · have hne : ¬ a < b := by omega
      have hne' : a ≠ b := by omega
      by_cases hx : x = b
      · subst hx; simp [Memory.write, Memory.read, hne, hne', Ne.symm hne']
      · simp [Memory.write, Memory.read, hne, hne', hx, ih hm']

/-- Every entry after a write was there before or is the one written. -/
theorem Memory.mem_write {m : Memory} {a : Nat} {v : Cell} {e : Nat × Cell} (h : e ∈ m.write a v) :
    e ∈ m ∨ (e = (a, v) ∧ v ≠ 0#32) := by
  induction m with
  | nil =>
    unfold Memory.write at h
    split at h <;> simp_all
  | cons d m ih =>
    obtain ⟨b, w⟩ := d
    unfold Memory.write at h
    split at h
    · split at h <;> (simp_all; try tauto)
    · split at h
      · split at h <;> (simp_all; try tauto)
      · rcases List.mem_cons.1 h with rfl | h
        · exact .inl (by simp)
        · rcases ih h with h | h
          · exact .inl (by simp [h])
          · exact .inr h

/-- A write keeps the canonical form. -/
theorem Memory.wf_write {m : Memory} (hm : m.wf) (a : Nat) (v : Cell) : (m.write a v).wf := by
  induction m with
  | nil => by_cases hv : v = 0#32 <;> simp [Memory.write, Memory.wf, hv]
  | cons e m ih =>
    obtain ⟨b, w⟩ := e
    obtain ⟨hb, hw, hm'⟩ := Memory.wf_cons.1 hm
    unfold Memory.write
    by_cases hab : a < b
    · by_cases hv : v = 0#32
      · simpa [hab, hv] using hm
      · rw [if_pos hab, if_neg hv, Memory.wf_cons]
        refine ⟨fun e he => ?_, hv, hm⟩
        rcases List.mem_cons.1 he with rfl | he
        · exact hab
        · exact lt_trans hab (hb e he)
    · by_cases hab' : a = b
      · subst hab'
        by_cases hv : v = 0#32
        · simpa [hv] using hm'
        · rw [if_neg hab, if_pos rfl, if_neg hv, Memory.wf_cons]
          exact ⟨hb, hv, hm'⟩
      · rw [if_neg hab, if_neg hab', Memory.wf_cons]
        refine ⟨fun e he => ?_, hw, ih hm'⟩
        rcases Memory.mem_write he with he | ⟨rfl, -⟩
        · exact hb e he
        · simp; omega

/-- A write below a bound keeps every listed address below it. -/
theorem Memory.bounded_write {m : Memory} {n a : Nat} (hm : ∀ e ∈ m, e.1 < n) (ha : a < n) (v : Cell) :
    ∀ e ∈ m.write a v, e.1 < n := by
  intro e he
  rcases Memory.mem_write he with he | ⟨rfl, -⟩
  · exact hm e he
  · exact ha

theorem Memory.wf_writeAll {m : Memory} (hm : m.wf) (a : Nat) (vs : List Cell) : (m.writeAll a vs).wf := by
  induction vs generalizing m a with
  | nil => exact hm
  | cons v vs ih => exact ih (Memory.wf_write hm a v) (a + 1)

theorem Memory.bounded_writeAll {m : Memory} {n : Nat} (hm : ∀ e ∈ m, e.1 < n) (a : Nat) (vs : List Cell)
    (h : a + vs.length ≤ n) : ∀ e ∈ m.writeAll a vs, e.1 < n := by
  induction vs generalizing m a with
  | nil => exact hm
  | cons v vs ih =>
    simp only [List.length_cons] at h
    exact ih (Memory.bounded_write hm (by omega) v) (a + 1) (by omega)

/-- A block write sets the cells it covers and leaves the others. -/
theorem Memory.read_writeAll {m : Memory} (hm : m.wf) (a : Nat) (vs : List Cell) (x : Nat) :
    (m.writeAll a vs).read x = if a ≤ x ∧ x < a + vs.length then vs.getD (x - a) 0#32 else m.read x := by
  induction vs generalizing m a with
  | nil => simp [Memory.writeAll]
  | cons v vs ih =>
    rw [Memory.writeAll, ih (Memory.wf_write hm a v), Memory.read_write hm]
    by_cases h1 : x = a
    · subst h1; simp
    · by_cases h2 : a + 1 ≤ x ∧ x < a + 1 + vs.length
      · have h3 : x - a = x - (a + 1) + 1 := by omega
        have h4 : a ≤ x ∧ x < a + (v :: vs).length := by simp; omega
        rw [if_pos h2, if_pos h4, h3, List.getD_cons_succ]
      · have h4 : ¬ (a ≤ x ∧ x < a + (v :: vs).length) := by simp; omega
        rw [if_neg h2, if_neg h4, if_neg h1]

/-- Equal memories are equal data: two canonical memories that read alike are the same list. -/
theorem Memory.ext {m m' : Memory} (wfm : m.wf) (wfm' : m'.wf) (h : ∀ a, m.read a = m'.read a) : m = m' := by
  induction m generalizing m' with
  | nil =>
    cases m' with
    | nil => rfl
    | cons e' m' => exact absurd (h e'.1).symm (by simp [Memory.read, (Memory.wf_cons.1 wfm').2.1])
  | cons e m ih =>
    obtain ⟨b, w⟩ := e
    obtain ⟨hb, hw, hm⟩ := Memory.wf_cons.1 wfm
    cases m' with
    | nil => exact absurd (h b) (by simp [Memory.read, hw])
    | cons e' m' =>
      obtain ⟨b', w'⟩ := e'
      obtain ⟨hb', hw', hm'⟩ := Memory.wf_cons.1 wfm'
      rcases Nat.lt_trichotomy b b' with hlt | rfl | hlt
      · have zero : Memory.read m' b = 0#32 := Memory.read_of_lt fun e he => lt_trans hlt (hb' e he)
        exact absurd (h b) (by simp [Memory.read, Nat.ne_of_lt hlt, zero, hw])
      · have hww : w = w' := by simpa [Memory.read] using h b
        subst hww
        have hr : ∀ a, Memory.read m a = Memory.read m' a := fun a => by
          by_cases hab : a = b
          · subst hab; rw [Memory.read_of_lt hb, Memory.read_of_lt hb']
          · simpa [Memory.read, hab] using h a
        rw [ih hm hm' hr]
      · have zero : Memory.read m b' = 0#32 := Memory.read_of_lt fun e he => lt_trans hlt (hb e he)
        exact absurd (h b').symm (by simp [Memory.read, Nat.ne_of_lt hlt, zero, hw'])

/-- The cells a save reads, one by one. -/
theorem Memory.cells_eq (m : Memory) (n a : Nat) : m.cells n a = (List.range n).map fun i => m.read (a + i) := by
  induction n generalizing a with
  | zero => rfl
  | succ n ih =>
    rw [Memory.cells, ih, List.range_succ_eq_map]
    simp [Function.comp_def, Nat.add_assoc, Nat.add_comm 1]

/-- The memory of the reset state is in canonical form. -/
theorem State.reset_mem_wf : State.reset.mem.wf := Memory.wf_nil

end Sys2Proof.Machine
end

