-- ==== Sys2Proof/Laws/State.lean ====
section
/-! SUPPORT. What each single update of the state leaves in each field, so that no proof unfolds an update. -/

namespace Sys2Proof.Machine

@[simp] theorem State.setIp_params (s : State) (a : Cell) : (s.setIp a).params = s.params := rfl
@[simp] theorem State.setIp_mem (s : State) (a : Cell) : (s.setIp a).mem = s.mem := rfl
@[simp] theorem State.setIp_dstack (s : State) (a : Cell) : (s.setIp a).dstack = s.dstack := rfl
@[simp] theorem State.setIp_astack (s : State) (a : Cell) : (s.setIp a).astack = s.astack := rfl
@[simp] theorem State.setIp_ip (s : State) (a : Cell) : (s.setIp a).ip = a := rfl
@[simp] theorem State.setIp_ports (s : State) (a : Cell) : (s.setIp a).ports = s.ports := rfl
@[simp] theorem State.setIp_status (s : State) (a : Cell) : (s.setIp a).status = s.status := rfl
@[simp] theorem State.setIp_calls (s : State) (a : Cell) : (s.setIp a).calls = s.calls := rfl
@[simp] theorem State.setIp_draws (s : State) (a : Cell) : (s.setIp a).draws = s.draws := rfl

@[simp] theorem State.setData_params (s : State) (l : List Cell) : (s.setData l).params = s.params := rfl
@[simp] theorem State.setData_mem (s : State) (l : List Cell) : (s.setData l).mem = s.mem := rfl
@[simp] theorem State.setData_dstack (s : State) (l : List Cell) : (s.setData l).dstack = l := rfl
@[simp] theorem State.setData_astack (s : State) (l : List Cell) : (s.setData l).astack = s.astack := rfl
@[simp] theorem State.setData_ip (s : State) (l : List Cell) : (s.setData l).ip = s.ip := rfl
@[simp] theorem State.setData_ports (s : State) (l : List Cell) : (s.setData l).ports = s.ports := rfl
@[simp] theorem State.setData_status (s : State) (l : List Cell) : (s.setData l).status = s.status := rfl
@[simp] theorem State.setData_calls (s : State) (l : List Cell) : (s.setData l).calls = s.calls := rfl
@[simp] theorem State.setData_draws (s : State) (l : List Cell) : (s.setData l).draws = s.draws := rfl

@[simp] theorem State.setAddr_params (s : State) (l : List Cell) : (s.setAddr l).params = s.params := rfl
@[simp] theorem State.setAddr_mem (s : State) (l : List Cell) : (s.setAddr l).mem = s.mem := rfl
@[simp] theorem State.setAddr_dstack (s : State) (l : List Cell) : (s.setAddr l).dstack = s.dstack := rfl
@[simp] theorem State.setAddr_astack (s : State) (l : List Cell) : (s.setAddr l).astack = l := rfl
@[simp] theorem State.setAddr_ip (s : State) (l : List Cell) : (s.setAddr l).ip = s.ip := rfl
@[simp] theorem State.setAddr_ports (s : State) (l : List Cell) : (s.setAddr l).ports = s.ports := rfl
@[simp] theorem State.setAddr_status (s : State) (l : List Cell) : (s.setAddr l).status = s.status := rfl
@[simp] theorem State.setAddr_calls (s : State) (l : List Cell) : (s.setAddr l).calls = s.calls := rfl
@[simp] theorem State.setAddr_draws (s : State) (l : List Cell) : (s.setAddr l).draws = s.draws := rfl

@[simp] theorem State.setMem_params (s : State) (m : Memory) : (s.setMem m).params = s.params := rfl
@[simp] theorem State.setMem_mem (s : State) (m : Memory) : (s.setMem m).mem = m := rfl
@[simp] theorem State.setMem_dstack (s : State) (m : Memory) : (s.setMem m).dstack = s.dstack := rfl
@[simp] theorem State.setMem_astack (s : State) (m : Memory) : (s.setMem m).astack = s.astack := rfl
@[simp] theorem State.setMem_ip (s : State) (m : Memory) : (s.setMem m).ip = s.ip := rfl
@[simp] theorem State.setMem_ports (s : State) (m : Memory) : (s.setMem m).ports = s.ports := rfl
@[simp] theorem State.setMem_status (s : State) (m : Memory) : (s.setMem m).status = s.status := rfl
@[simp] theorem State.setMem_calls (s : State) (m : Memory) : (s.setMem m).calls = s.calls := rfl
@[simp] theorem State.setMem_draws (s : State) (m : Memory) : (s.setMem m).draws = s.draws := rfl

@[simp] theorem State.setPort_params (s : State) (i : Fin 12) (v : Cell) : (s.setPort i v).params = s.params := rfl
@[simp] theorem State.setPort_mem (s : State) (i : Fin 12) (v : Cell) : (s.setPort i v).mem = s.mem := rfl
@[simp] theorem State.setPort_dstack (s : State) (i : Fin 12) (v : Cell) : (s.setPort i v).dstack = s.dstack := rfl
@[simp] theorem State.setPort_astack (s : State) (i : Fin 12) (v : Cell) : (s.setPort i v).astack = s.astack := rfl
@[simp] theorem State.setPort_ip (s : State) (i : Fin 12) (v : Cell) : (s.setPort i v).ip = s.ip := rfl
@[simp] theorem State.setPort_ports (s : State) (i : Fin 12) (v : Cell) : (s.setPort i v).ports = s.ports.set i v := rfl
@[simp] theorem State.setPort_status (s : State) (i : Fin 12) (v : Cell) : (s.setPort i v).status = s.status := rfl
@[simp] theorem State.setPort_calls (s : State) (i : Fin 12) (v : Cell) : (s.setPort i v).calls = s.calls := rfl
@[simp] theorem State.setPort_draws (s : State) (i : Fin 12) (v : Cell) : (s.setPort i v).draws = s.draws := rfl

@[simp] theorem State.logCall_params (s : State) (c : DevCall) : (s.logCall c).params = s.params := rfl
@[simp] theorem State.logCall_mem (s : State) (c : DevCall) : (s.logCall c).mem = s.mem := rfl
@[simp] theorem State.logCall_dstack (s : State) (c : DevCall) : (s.logCall c).dstack = s.dstack := rfl
@[simp] theorem State.logCall_astack (s : State) (c : DevCall) : (s.logCall c).astack = s.astack := rfl
@[simp] theorem State.logCall_ip (s : State) (c : DevCall) : (s.logCall c).ip = s.ip := rfl
@[simp] theorem State.logCall_ports (s : State) (c : DevCall) : (s.logCall c).ports = s.ports := rfl
@[simp] theorem State.logCall_status (s : State) (c : DevCall) : (s.logCall c).status = s.status := rfl
@[simp] theorem State.logCall_calls (s : State) (c : DevCall) : (s.logCall c).calls = c :: s.calls := rfl
@[simp] theorem State.logCall_draws (s : State) (c : DevCall) : (s.logCall c).draws = s.draws := rfl

@[simp] theorem State.nextDraw_params (s : State) : (s.nextDraw).params = s.params := rfl
@[simp] theorem State.nextDraw_mem (s : State) : (s.nextDraw).mem = s.mem := rfl
@[simp] theorem State.nextDraw_dstack (s : State) : (s.nextDraw).dstack = s.dstack := rfl
@[simp] theorem State.nextDraw_astack (s : State) : (s.nextDraw).astack = s.astack := rfl
@[simp] theorem State.nextDraw_ip (s : State) : (s.nextDraw).ip = s.ip := rfl
@[simp] theorem State.nextDraw_ports (s : State) : (s.nextDraw).ports = s.ports := rfl
@[simp] theorem State.nextDraw_status (s : State) : (s.nextDraw).status = s.status := rfl
@[simp] theorem State.nextDraw_calls (s : State) : (s.nextDraw).calls = s.calls := rfl
@[simp] theorem State.nextDraw_draws (s : State) : (s.nextDraw).draws = s.draws + 1 := rfl

/-! The fields after a fault that the spec does not leave open. -/

@[simp] theorem State.enterFault_status (s : State) (k : Fault) : (s.enterFault k).status = .faulted k := rfl
@[simp] theorem State.enterFault_params (s : State) (k : Fault) : (s.enterFault k).params = s.params := rfl
@[simp] theorem State.enterFault_calls (s : State) (k : Fault) : (s.enterFault k).calls = s.calls := rfl
@[simp] theorem State.enterFault_draws (s : State) (k : Fault) : (s.enterFault k).draws = s.draws := rfl

/-! Ports: one register is written, the others are left alone. -/

@[simp] theorem State.port_setPort_same (s : State) (i : Fin 12) (v : Cell) : (s.setPort i v).port i = v := by
  simp [State.port]

theorem State.port_setPort_of_ne (s : State) {i j : Fin 12} (v : Cell) (h : j ≠ i) :
    (s.setPort i v).port j = s.port j := by
  have h' : (i : Nat) ≠ j := fun e => h (Fin.ext e.symm)
  simp [State.port, Vector.getElem_set_ne _ _ h']

theorem State.port_setPort (s : State) (i j : Fin 12) (v : Cell) :
    (s.setPort i v).port j = if j = i then v else s.port j := by
  by_cases h : j = i
  · subst h; simp
  · simp [h, State.port_setPort_of_ne s v h]

@[simp] theorem State.port_setIp (s : State) (a : Cell) (j : Fin 12) : (s.setIp a).port j = s.port j := rfl
@[simp] theorem State.port_setData (s : State) (l : List Cell) (j : Fin 12) : (s.setData l).port j = s.port j := rfl
@[simp] theorem State.port_setAddr (s : State) (l : List Cell) (j : Fin 12) : (s.setAddr l).port j = s.port j := rfl
@[simp] theorem State.port_setMem (s : State) (m : Memory) (j : Fin 12) : (s.setMem m).port j = s.port j := rfl
@[simp] theorem State.port_logCall (s : State) (c : DevCall) (j : Fin 12) : (s.logCall c).port j = s.port j := rfl
@[simp] theorem State.port_nextDraw (s : State) (j : Fin 12) : (s.nextDraw).port j = s.port j := rfl


/-! The opcode map is a parameter, so no update changes what a cell selects. -/

@[simp] theorem State.dispatch_setIp (s : State) (a op : Cell) : (s.setIp a).dispatch op = s.dispatch op := rfl
@[simp] theorem State.dispatch_setData (s : State) (l : List Cell) (op : Cell) : (s.setData l).dispatch op = s.dispatch op := rfl
@[simp] theorem State.dispatch_setAddr (s : State) (l : List Cell) (op : Cell) : (s.setAddr l).dispatch op = s.dispatch op := rfl
@[simp] theorem State.dispatch_setMem (s : State) (m : Memory) (op : Cell) : (s.setMem m).dispatch op = s.dispatch op := rfl
@[simp] theorem State.dispatch_setPort (s : State) (i : Fin 12) (v op : Cell) : (s.setPort i v).dispatch op = s.dispatch op := rfl
@[simp] theorem State.dispatch_logCall (s : State) (c : DevCall) (op : Cell) : (s.logCall c).dispatch op = s.dispatch op := rfl
@[simp] theorem State.dispatch_nextDraw (s : State) (op : Cell) : (s.nextDraw).dispatch op = s.dispatch op := rfl

end Sys2Proof.Machine
end

