-- ==== Sys2Proof/Laws/Boot.lean ====
section
/-! SUPPORT. When an image load has a result, and the boot image's byte order as concatenation. -/

namespace Sys2Proof.Machine

/-- A machine right after reset is just reset. -/
theorem State.justReset_resetOf (p : Params) : (State.resetOf p).JustReset := rfl

/-- A machine reset by the host is just reset. -/
theorem State.justReset_hostReset (s : State) : s.hostReset.JustReset := rfl

/-- A machine that is not running is not just reset, so only a reset leaves FAULTED and BOOT_FAILED. -/
theorem State.not_justReset {s : State} (h : s.status ≠ .running) : ¬ s.JustReset :=
  fun e => h (congrArg State.status e)

theorem State.loadImage_of_justReset {s : State} (h : s.JustReset) (file : Option (List Byte)) :
    s.loadImage file = match file.bind imageWords with
      | some ws => some (s.loadWords ws)
      | none => some s.bootFail := if_pos h

theorem State.loadImage_of_not {s : State} (h : ¬ s.JustReset) (file : Option (List Byte)) :
    s.loadImage file = none := if_neg h

/-- Most significant first, as concatenation. -/
theorem cellOfBytes_eq_append (b0 b1 b2 b3 : Byte) : cellOfBytes b0 b1 b2 b3 = b0 ++ b1 ++ b2 ++ b3 := by
  have horner : b0.toNat * 2 ^ 24 + b1.toNat * 2 ^ 16 + b2.toNat * 2 ^ 8 + b3.toNat =
      ((b0.toNat * 2 ^ 8 + b1.toNat) * 2 ^ 8 + b2.toNat) * 2 ^ 8 + b3.toNat := by ring
  apply BitVec.eq_of_toNat_eq
  have value : (b0 ++ b1 ++ b2 ++ b3).toNat =
      ((b0.toNat * 2 ^ 8 + b1.toNat) * 2 ^ 8 + b2.toNat) * 2 ^ 8 + b3.toNat := by
    rw [BitVec.toNat_append, BitVec.toNat_append, BitVec.toNat_append,
      ← Nat.shiftLeft_add_eq_or_of_lt b1.isLt, ← Nat.shiftLeft_add_eq_or_of_lt b2.isLt,
      ← Nat.shiftLeft_add_eq_or_of_lt b3.isLt]
    simp only [Nat.shiftLeft_eq]
  rw [cellOfBytes, horner, BitVec.toNat_ofNat, ← value]
  exact Nat.mod_eq_of_lt (b0 ++ b1 ++ b2 ++ b3).isLt

end Sys2Proof.Machine
end

