-- ==== Sys2Proof/Laws/Decode.lean ====
section
/-! SUPPORT. The dispatcher and the opcode maps: which cells are primitives, and that a valid map holds every primitive
once. -/

namespace Sys2Proof

/-- The primitives' numbers are the cells below 31 as unsigned numbers too. -/
theorem isPrimitiveNumber_iff (op : Cell) : IsPrimitiveNumber op ↔ op.toNat < 31 := by
  unfold IsPrimitiveNumber
  rw [BitVec.toInt_eq_toNat_cond]
  split <;> omega

/-- A call is well formed exactly when its target is no primitive's number. -/
theorem wf_call_iff (v : Cell) : (Instr.call v).wf = true ↔ ¬ IsPrimitiveNumber v := by
  simp only [Instr.wf, Bool.not_eq_true', decide_eq_false_iff_not]

theorem decodeWith_of_primitive (map : List Instr) {op : Cell} (h : IsPrimitiveNumber op) :
    decodeWith map op = map.getD op.toNat (.call op) := by simp only [decodeWith, if_pos h]

theorem decodeWith_of_not (map : List Instr) {op : Cell} (h : ¬ IsPrimitiveNumber op) :
    decodeWith map op = .call op := by simp only [decodeWith, if_neg h]

/-- No entry of the spec's opcode map is a call. -/
theorem opcodeMap_no_call : ∀ i ∈ opcodeMap, ∀ v, i ≠ .call v := by simp [opcodeMap]

/-- Every instruction but a call is in the spec's opcode map. -/
theorem mem_opcodeMap (i : Instr) (h : ∀ v, i ≠ .call v) : i ∈ opcodeMap := by
  cases i
  case call v => exact absurd rfl (h v)
  all_goals decide

/-- A valid opcode map has 31 places. -/
theorem validOpcodeMap_length {map : List Instr} (h : validOpcodeMap map = true) : map.length = 31 := by
  simp only [validOpcodeMap, Bool.and_eq_true, List.isPerm_iff] at h
  exact h.1.length_eq

/-- A valid opcode map holds every instruction but the calls. -/
theorem mem_validOpcodeMap {map : List Instr} (hmap : validOpcodeMap map = true) (i : Instr) :
    i ∈ map ↔ ∀ v, i ≠ .call v := by
  simp only [validOpcodeMap, Bool.and_eq_true, List.isPerm_iff] at hmap
  rw [hmap.1.mem_iff]
  exact ⟨opcodeMap_no_call i, mem_opcodeMap i⟩

/-- A valid opcode map holds no instruction twice. -/
theorem nodup_validOpcodeMap {map : List Instr} (h : validOpcodeMap map = true) : map.Nodup := by
  simp only [validOpcodeMap, Bool.and_eq_true, List.isPerm_iff] at h
  exact h.1.nodup_iff.2 (by decide)

/-- A valid opcode map has NOP at 0. -/
theorem validOpcodeMap_head {map : List Instr} (h : validOpcodeMap map = true) : map[0]? = some .nop := by
  simp only [validOpcodeMap, Bool.and_eq_true, beq_iff_eq] at h
  rw [← List.head?_eq_getElem?]; exact h.2

theorem validOpcodeMap_opcodeMap : validOpcodeMap opcodeMap = true := by decide

/-- The cell of a primitive is its place in the map. -/
theorem encodeWith_of_ne_call (map : List Instr) (i : Instr) (h : ∀ v, i ≠ .call v) :
    encodeWith map i = BitVec.ofNat 32 (map.idxOf i) := by
  cases i
  case call v => exact absurd rfl (h v)
  all_goals rfl

end Sys2Proof
end

