-- ==== Sys2Proof/Laws/Ops.lean ====
section
/-! SUPPORT. What each shared operation can do: its equation on each kind of state, and how a property of next states
passes through it. The proofs of the statements cite these and unfold no operation. -/

namespace Sys2Proof.Machine

variable {P : State → Prop} {s : State}

/-! ### Equations -/

@[simp] theorem dPop_of_nil {k} (h : s.dstack = []) : dPop s k = .fault .stackFault := by simp [dPop, h, raise]
@[simp] theorem dPop_of_cons {k} {v : Cell} {l : List Cell} (h : s.dstack = v :: l) : dPop s k = k v (s.setData l) := by
  simp [dPop, h]
@[simp] theorem dPeek_of_nil {k} (h : s.dstack = []) : dPeek s k = .fault .stackFault := by simp [dPeek, h, raise]
@[simp] theorem dPeek_of_cons {k} {v : Cell} {l : List Cell} (h : s.dstack = v :: l) : dPeek s k = k v := by
  simp [dPeek, h]
@[simp] theorem aPop_of_nil {k} (h : s.astack = []) : aPop s k = .fault .stackFault := by simp [aPop, h, raise]
@[simp] theorem aPop_of_cons {k} {v : Cell} {l : List Cell} (h : s.astack = v :: l) : aPop s k = k v (s.setAddr l) := by
  simp [aPop, h]
theorem dPush_of_lt {k} {v : Cell} (h : s.dstack.length < s.params.dsCap) : dPush s v k = k (s.setData (v :: s.dstack)) := by
  simp [dPush, h]
theorem dPush_of_full {k} {v : Cell} (h : s.params.dsCap ≤ s.dstack.length) : dPush s v k = .fault .stackFault := by
  simp [dPush, Nat.not_lt.2 h, raise]
theorem aPush_of_lt {k} {v : Cell} (h : s.astack.length < s.params.asCap) : aPush s v k = k (s.setAddr (v :: s.astack)) := by
  simp [aPush, h]
theorem aPush_of_full {k} {v : Cell} (h : s.params.asCap ≤ s.astack.length) : aPush s v k = .fault .stackFault := by
  simp [aPush, Nat.not_lt.2 h, raise]
theorem memRead_of_inBounds {a : Cell} {k} (h : s.InBounds a) : memRead s a k = k (s.mem.read a.toNat) := by
  simp only [memRead, if_pos h]
theorem memRead_of_not {a : Cell} {k} (h : ¬ s.InBounds a) : memRead s a k = .fault .outOfBounds := by
  simp only [memRead, if_neg h, raise]
theorem memWrite_of_inBounds {a v : Cell} {k} (h : s.InBounds a) :
    memWrite s a v k = k (s.setMem (s.mem.write a.toNat v)) := by
  simp only [memWrite, if_pos h]
theorem memWrite_of_not {a v : Cell} {k} (h : ¬ s.InBounds a) : memWrite s a v k = .fault .outOfBounds := by
  simp only [memWrite, if_neg h, raise]
theorem portIndex_of_range {x : Cell} {k} (h : 0 ≤ x.toInt ∧ x.toInt ≤ 11) :
    portIndex x k = k ⟨x.toInt.toNat, by omega⟩ := by
  simp only [portIndex, dif_pos h]
theorem portIndex_of_not {x : Cell} {k} (h : ¬ (0 ≤ x.toInt ∧ x.toInt ≤ 11)) : portIndex x k = .fault .outOfBounds := by
  simp only [portIndex, dif_neg h, raise]

/-- An address inside memory is a cell index below N. -/
theorem State.InBounds.toNat_lt {a : Cell} (h : s.InBounds a) : a.toNat < s.params.memCells := by
  have := h.1; have := h.2; rw [BitVec.toInt_eq_toNat_cond] at *; split at * <;> omega

@[simp] theorem closeStep_next (t : State) : closeStep (.next t) = .next (t.setIp (t.ip + 1#32)) := rfl
@[simp] theorem closeStep_fault (f : Fault) : closeStep (.fault f) = .fault f := rfl
@[simp] theorem closeStep_refused (r : Refusal) : closeStep (.refused r) = .refused r := rfl

/-! ### Operations that do not look at what an update changed -/

@[simp] theorem State.InBounds_setIp (s : State) (x : Cell) (a : Cell) : (s.setIp x).InBounds a ↔ s.InBounds a := Iff.rfl
@[simp] theorem memRead_setIp (s : State) (x : Cell) (a : Cell) (k : Cell → Out) :
    memRead (s.setIp x) a k = memRead s a k := rfl
@[simp] theorem landing_setIp (s : State) (x : Cell) (t : Cell) : landing (s.setIp x) t = landing s t := rfl
@[simp] theorem State.InBounds_setData (s : State) (x : List Cell) (a : Cell) : (s.setData x).InBounds a ↔ s.InBounds a := Iff.rfl
@[simp] theorem memRead_setData (s : State) (x : List Cell) (a : Cell) (k : Cell → Out) :
    memRead (s.setData x) a k = memRead s a k := rfl
@[simp] theorem landing_setData (s : State) (x : List Cell) (t : Cell) : landing (s.setData x) t = landing s t := rfl
@[simp] theorem State.InBounds_setAddr (s : State) (x : List Cell) (a : Cell) : (s.setAddr x).InBounds a ↔ s.InBounds a := Iff.rfl
@[simp] theorem memRead_setAddr (s : State) (x : List Cell) (a : Cell) (k : Cell → Out) :
    memRead (s.setAddr x) a k = memRead s a k := rfl
@[simp] theorem landing_setAddr (s : State) (x : List Cell) (t : Cell) : landing (s.setAddr x) t = landing s t := rfl
@[simp] theorem State.InBounds_setPort (s : State) (i : Fin 12) (x : Cell) (a : Cell) : (s.setPort i x).InBounds a ↔ s.InBounds a := Iff.rfl
@[simp] theorem memRead_setPort (s : State) (i : Fin 12) (x : Cell) (a : Cell) (k : Cell → Out) :
    memRead (s.setPort i x) a k = memRead s a k := rfl
@[simp] theorem landing_setPort (s : State) (i : Fin 12) (x : Cell) (t : Cell) : landing (s.setPort i x) t = landing s t := rfl
@[simp] theorem State.InBounds_logCall (s : State) (x : DevCall) (a : Cell) : (s.logCall x).InBounds a ↔ s.InBounds a := Iff.rfl
@[simp] theorem memRead_logCall (s : State) (x : DevCall) (a : Cell) (k : Cell → Out) :
    memRead (s.logCall x) a k = memRead s a k := rfl
@[simp] theorem landing_logCall (s : State) (x : DevCall) (t : Cell) : landing (s.logCall x) t = landing s t := rfl
@[simp] theorem State.InBounds_nextDraw (s : State) (a : Cell) : (s.nextDraw).InBounds a ↔ s.InBounds a := Iff.rfl
@[simp] theorem memRead_nextDraw (s : State) (a : Cell) (k : Cell → Out) :
    memRead (s.nextDraw) a k = memRead s a k := rfl
@[simp] theorem landing_nextDraw (s : State) (t : Cell) : landing (s.nextDraw) t = landing s t := rfl

/-! ### Properties of next states -/

@[simp] theorem ends_next (t : State) : Ends P (.next t) ↔ P t := by
  constructor
  · intro h; exact h t rfl
  · rintro h _ ⟨⟩; exact h
@[simp] theorem ends_fault (f : Fault) : Ends P (.fault f) := fun _ h => by cases h
@[simp] theorem ends_refused (r : Refusal) : Ends P (.refused r) := fun _ h => by cases h
@[simp] theorem ends_raise (f : Fault) : Ends P (raise f) := fun _ h => by cases h

theorem Ends.mono {Q : State → Prop} {o : Out} (h : Ends P o) (hpq : ∀ t, P t → Q t) : Ends Q o :=
  fun t ht => hpq t (h t ht)

theorem ends_dPop {k} (h : ∀ v l, s.dstack = v :: l → Ends P (k v (s.setData l))) : Ends P (dPop s k) := by
  cases hs : s.dstack with
  | nil => simp [dPop, hs]
  | cons v l => simpa [dPop, hs] using h v l hs

theorem ends_dPeek {k} (h : ∀ v l, s.dstack = v :: l → Ends P (k v)) : Ends P (dPeek s k) := by
  cases hs : s.dstack with
  | nil => simp [dPeek, hs]
  | cons v l => simpa [dPeek, hs] using h v l hs

theorem ends_aPop {k} (h : ∀ v l, s.astack = v :: l → Ends P (k v (s.setAddr l))) : Ends P (aPop s k) := by
  cases hs : s.astack with
  | nil => simp [aPop, hs]
  | cons v l => simpa [aPop, hs] using h v l hs

theorem ends_dPush {v : Cell} {k}
    (h : s.dstack.length < s.params.dsCap → Ends P (k (s.setData (v :: s.dstack)))) : Ends P (dPush s v k) := by
  unfold dPush; split
  · exact h ‹_›
  · simp

theorem ends_aPush {v : Cell} {k}
    (h : s.astack.length < s.params.asCap → Ends P (k (s.setAddr (v :: s.astack)))) : Ends P (aPush s v k) := by
  unfold aPush; split
  · exact h ‹_›
  · simp

theorem ends_memRead {a : Cell} {k} (h : s.InBounds a → Ends P (k (s.mem.read a.toNat))) : Ends P (memRead s a k) := by
  by_cases hb : s.InBounds a
  · rw [memRead_of_inBounds hb]; exact h hb
  · rw [memRead_of_not hb]; simp

theorem ends_memWrite {a v : Cell} {k}
    (h : s.InBounds a → Ends P (k (s.setMem (s.mem.write a.toNat v)))) : Ends P (memWrite s a v k) := by
  by_cases hb : s.InBounds a
  · rw [memWrite_of_inBounds hb]; exact h hb
  · rw [memWrite_of_not hb]; simp

theorem ends_portIndex {x : Cell} {k} (h : ∀ i, x.toInt = (i : Fin 12).val → Ends P (k i)) : Ends P (portIndex x k) := by
  by_cases hb : 0 ≤ x.toInt ∧ x.toInt ≤ 11
  · rw [portIndex_of_range hb]; exact h _ (by simp; omega)
  · rw [portIndex_of_not hb]; simp

theorem ends_readString {a : Cell} {k}
    (h : ∀ cs, s.InBounds a → scanString s.mem (s.params.memCells - a.toNat) a.toNat = some cs → Ends P (k cs)) :
    Ends P (readString s a k) := by
  by_cases hb : s.InBounds a
  · cases hc : scanString s.mem (s.params.memCells - a.toNat) a.toNat with
    | none => simp only [readString, if_pos hb, hc]; simp
    | some cs => simp only [readString, if_pos hb, hc]; exact h cs hb hc
  · simp only [readString, if_neg hb]; simp

theorem ends_stringAddress {src : AddrSource} {k}
    (h : ∀ a t, (t = s ∨ ∃ v, s.dstack = v :: t.dstack ∧ t = s.setData t.dstack) → Ends P (k a t)) :
    Ends P (stringAddress src s k) := by
  cases src with
  | stack => exact ends_dPop fun v l hs => h v _ (.inr ⟨v, hs, rfl⟩)
  | port p => exact h _ _ (.inl rfl)
  | fixed a => exact h _ _ (.inl rfl)

/-- Taking arguments only takes cells off the data stack: the state afterwards differs in the data stack alone, which is
a tail of what it was. -/
theorem ends_takeArgs {steps : List ArgStep} {k : List DevArg → State → Out}
    (h : ∀ args l, l <:+ s.dstack → Ends P (k args (s.setData l))) : Ends P (takeArgs steps s k) := by
  induction steps generalizing s k with
  | nil => exact h [] s.dstack (List.suffix_refl _)
  | cons step steps ih =>
    cases step with
    | cell =>
      refine ends_dPop fun v l hs => ih fun args l' hl => ?_
      exact h _ l' (hl.trans (hs ▸ List.suffix_cons v l))
    | string src =>
      refine ends_stringAddress fun a t ht => ends_readString fun cs _ _ => ih fun args l' hl => ?_
      rcases ht with rfl | ⟨v, hs, ht⟩
      · exact h _ l' hl
      · have : t.setData l' = s.setData l' := by rw [ht]; rfl
        rw [this]
        exact h _ l' (hl.trans (hs ▸ List.suffix_cons v _))

/-- The trailing-NOP skip changes `ip` alone, by 0, 1 or 2. -/
theorem ends_nopSkip {k : State → Out}
    (h : ∀ a, a = s.ip ∨ a = s.ip + 1#32 ∨ a = s.ip + 1#32 + 1#32 → Ends P (k (s.setIp a))) : Ends P (nopSkip s k) := by
  have skip_none : s.setIp s.ip = s := rfl
  unfold nopSkip skipOnce
  refine ends_memRead fun _ => ?_
  split
  · dsimp only
    refine ends_memRead fun _ => ?_
    split
    · exact h _ (.inr (.inr rfl))
    · exact h _ (.inr (.inl rfl))
  · dsimp only
    refine ends_memRead fun _ => ?_
    split
    · exact h _ (.inr (.inl rfl))
    · exact skip_none ▸ h _ (.inl rfl)

theorem ends_takeBranch (h : ∀ t, Ends P (.next (s.setIp (t - 1#32)))) : Ends P (takeBranch s) := by
  unfold takeBranch readOperand
  exact ends_memRead fun _ => h _

theorem ends_awaitDevice {held : State} {k : State → Out}
    (hk : Ends P (k s.nextDraw)) (hh : P (held.setIp (held.ip - 1#32)).nextDraw) : Ends P (awaitDevice held s k) := by
  unfold awaitDevice; split
  · exact hk
  · simpa [hold] using hh

theorem ends_closeStep {o : Out} (h : Ends (fun t => P (t.setIp (t.ip + 1#32))) o) : Ends P (closeStep o) := by
  cases o with
  | next t => simpa using h t rfl
  | fault f => simp
  | refused r => simp

/-- What a step can do: nothing if the machine is stopped, else the effect of the fetched instruction and the closing
increment. -/
theorem ends_step (hstop : s.Stopped → P s)
    (hrun : ¬ s.Stopped → s.InBounds s.ip →
      Ends (fun t => P (t.setIp (t.ip + 1#32))) (exec (s.dispatch (s.mem.read s.ip.toNat)) s)) : Ends P (step s) := by
  by_cases hs : s.Stopped
  · rw [step, if_pos hs]; simpa using hstop hs
  · rw [step, if_neg hs]
    exact ends_memRead fun hb => ends_closeStep (hrun hs hb)

end Sys2Proof.Machine
end

