-- ==== Sys2Proof/Laws/Pass.lean ====
section
/-! SUPPORT. Which service a pass runs, and what taking the arguments of a request can do. -/

namespace Sys2Proof.Machine

/-- The five things a pass can do, by the request it finds posted. -/
theorem portPass_cases (s : State) :
    (posted s = none ∧ portPass s = .next s) ∨
    (posted s = some 1 ∧ portPass s = serviceInput s) ∨
    (posted s = some 2 ∧ portPass s = serviceConsole s) ∨
    (posted s = some 4 ∧ s.port 4 ≠ 0#32 ∧ portPass s = serviceStorage s) ∨
    (posted s = some 5 ∧ (s.port 5).toInt < 0 ∧ portPass s = serviceQuery s) := by
  unfold posted portPass isNegative
  simp only [decide_eq_true_eq]
  split_ifs <;> simp_all

/-- Reading a string either fails for good or gives one list of cells to whatever comes next. -/
theorem readString_cases (s : State) (a : Cell) :
    (∀ k, readString s a k = .fault .outOfBounds) ∨ ∃ cs, ∀ k, readString s a k = k cs := by
  by_cases hb : s.InBounds a
  · cases hc : scanString s.mem (s.params.memCells - a.toNat) a.toNat with
    | none => exact .inl fun k => by simp only [readString, if_pos hb, hc, raise]
    | some cs => exact .inr ⟨cs, fun k => by simp only [readString, if_pos hb, hc]⟩
  · exact .inl fun k => by simp only [readString, if_neg hb, raise]

/-- Taking an address either fails on an empty data stack or gives one address, and takes at most one cell. -/
theorem stringAddress_cases (src : AddrSource) (s : State) :
    (∀ k, stringAddress src s k = .fault .stackFault) ∨
    ∃ a l, l <:+ s.dstack ∧ ∀ k, stringAddress src s k = k a (s.setData l) := by
  cases src with
  | stack =>
    cases hs : s.dstack with
    | nil => exact .inl fun k => by rw [stringAddress, dPop_of_nil hs]
    | cons v l => exact .inr ⟨v, l, List.suffix_cons v l, fun k => by rw [stringAddress, dPop_of_cons hs]⟩
  | port p => exact .inr ⟨_, s.dstack, List.suffix_refl _, fun _ => rfl⟩
  | fixed a => exact .inr ⟨_, s.dstack, List.suffix_refl _, fun _ => rfl⟩

/-- Taking the arguments of a request either fails with one fault or gives one list of arguments, and takes cells off the
top of the data stack only. -/
theorem takeArgs_cases (steps : List ArgStep) (s : State) :
    (∀ k, takeArgs steps s k = .fault .stackFault) ∨ (∀ k, takeArgs steps s k = .fault .outOfBounds) ∨
    ∃ args l, l <:+ s.dstack ∧ ∀ k, takeArgs steps s k = k args (s.setData l) := by
  induction steps generalizing s with
  | nil => exact .inr (.inr ⟨[], s.dstack, List.suffix_refl _, fun _ => rfl⟩)
  | cons step steps ih =>
    cases step with
    | cell =>
      cases hs : s.dstack with
      | nil => exact .inl fun k => by rw [takeArgs, dPop_of_nil hs]
      | cons v l =>
        rcases ih (s.setData l) with h | h | ⟨args, l', hl, h⟩
        · exact .inl fun k => by rw [takeArgs, dPop_of_cons hs, h]
        · exact .inr (.inl fun k => by rw [takeArgs, dPop_of_cons hs, h])
        · exact .inr (.inr ⟨_, l', hl.trans (List.suffix_cons v l), fun k => by
            rw [takeArgs, dPop_of_cons hs, h]; rfl⟩)
    | string src =>
      rcases stringAddress_cases src s with h | ⟨a, l, hl, h⟩
      · exact .inl fun k => by rw [takeArgs, h]
      · rcases readString_cases (s.setData l) a with h' | ⟨cs, h'⟩
        · exact .inr (.inl fun k => by rw [takeArgs, h, h'])
        · rcases ih (s.setData l) with h'' | h'' | ⟨args, l', hl', h''⟩
          · exact .inl fun k => by rw [takeArgs, h, h', h'']
          · exact .inr (.inl fun k => by rw [takeArgs, h, h', h''])
          · exact .inr (.inr ⟨_, l', hl'.trans hl, fun k => by rw [takeArgs, h, h', h'']; rfl⟩)

end Sys2Proof.Machine
end

