-- ==== Sys2Proof/Laws/PerInstr.lean ====
section
/-! SUPPORT. The per-instruction family OpcodeCell: an instruction's opcode cell dispatches to the instruction, and the
cell is a primitive's number exactly for the 31 primitives (`30_encoding.md` R72 to R77). -/

namespace Sys2Proof.Laws.OpcodeCell

/-- A well-formed instruction's opcode cell, read back; and it lies in 0 to 30 unless the instruction is a call. -/
def Statement (i : Instr) : Prop :=
  i.wf = true → decodeOp (encodeOp i) = i ∧ (IsPrimitiveNumber (encodeOp i) ↔ ∀ v, i ≠ .call v)

/-- A primitive's cell is checked by evaluating the dispatcher on it. -/
theorem of_primitive (i : Instr) (hi : ∀ v, i ≠ .call v) (h : decodeOp (encodeOp i) = i)
    (hp : IsPrimitiveNumber (encodeOp i)) : Statement i := fun _ => ⟨h, fun _ => hi, fun _ => hp⟩

theorem nop : Statement .nop := of_primitive _ (by simp) (by decide) (by decide)
theorem lit : Statement .lit := of_primitive _ (by simp) (by decide) (by decide)
theorem dup : Statement .dup := of_primitive _ (by simp) (by decide) (by decide)
theorem drop : Statement .drop := of_primitive _ (by simp) (by decide) (by decide)
theorem swap : Statement .swap := of_primitive _ (by simp) (by decide) (by decide)
theorem push : Statement .push := of_primitive _ (by simp) (by decide) (by decide)
theorem pop : Statement .pop := of_primitive _ (by simp) (by decide) (by decide)
theorem loop : Statement .loop := of_primitive _ (by simp) (by decide) (by decide)
theorem jump : Statement .jump := of_primitive _ (by simp) (by decide) (by decide)
theorem ret : Statement .ret := of_primitive _ (by simp) (by decide) (by decide)
theorem ltJump : Statement .ltJump := of_primitive _ (by simp) (by decide) (by decide)
theorem gtJump : Statement .gtJump := of_primitive _ (by simp) (by decide) (by decide)
theorem neJump : Statement .neJump := of_primitive _ (by simp) (by decide) (by decide)
theorem eqJump : Statement .eqJump := of_primitive _ (by simp) (by decide) (by decide)
theorem fetch : Statement .fetch := of_primitive _ (by simp) (by decide) (by decide)
theorem store : Statement .store := of_primitive _ (by simp) (by decide) (by decide)
theorem add : Statement .add := of_primitive _ (by simp) (by decide) (by decide)
theorem sub : Statement .sub := of_primitive _ (by simp) (by decide) (by decide)
theorem mul : Statement .mul := of_primitive _ (by simp) (by decide) (by decide)
theorem divmod : Statement .divmod := of_primitive _ (by simp) (by decide) (by decide)
theorem and : Statement .and := of_primitive _ (by simp) (by decide) (by decide)
theorem or : Statement .or := of_primitive _ (by simp) (by decide) (by decide)
theorem xor : Statement .xor := of_primitive _ (by simp) (by decide) (by decide)
theorem shl : Statement .shl := of_primitive _ (by simp) (by decide) (by decide)
theorem shr : Statement .shr := of_primitive _ (by simp) (by decide) (by decide)
theorem zeroExit : Statement .zeroExit := of_primitive _ (by simp) (by decide) (by decide)
theorem inc : Statement .inc := of_primitive _ (by simp) (by decide) (by decide)
theorem dec : Statement .dec := of_primitive _ (by simp) (by decide) (by decide)
theorem inPort : Statement .inPort := of_primitive _ (by simp) (by decide) (by decide)
theorem outPort : Statement .outPort := of_primitive _ (by simp) (by decide) (by decide)
theorem wait : Statement .wait := of_primitive _ (by simp) (by decide) (by decide)

theorem call (v : Cell) : Statement (.call v) := by
  intro h
  have hv : ¬ IsPrimitiveNumber v := (wf_call_iff v).1 h
  exact ⟨decodeWith_of_not _ hv, fun hp => absurd hp hv, fun hp => absurd rfl (hp v)⟩

end Sys2Proof.Laws.OpcodeCell
end

