-- ==== Sys2Proof/Tests/Slice0.lean ====
section
/-! SUPPORT. The model's own tests: the spec's worked examples and vectors (`95_test_vectors.md`, ids in the comments), the
well-formedness checks, the words of the encoding, and for each statement with hypotheses states that meet them. -/

namespace Sys2Proof.Tests

open Sys2Proof.Machine

/-! ### Small states -/

/-- A running machine of `n` cells with both capacities 4, as the vectors of part 2 use it: the cells named, `ip`, the data
stack and the address stack, both bottom to top. -/
def tiny (n : Nat) (cells : List (Nat × Cell)) (ip : Cell) (ds : List Cell := []) (as : List Cell := []) : State :=
  { State.resetOf (Params.ofSizes n 4 4) with
    mem := cells.foldl (fun m e => m.write e.1 e.2) []
    ip := ip
    dstack := ds.reverse
    astack := as.reverse }

/-- The state with some ports set. -/
def withPorts (s : State) (ps : List (Fin 12 × Cell)) : State := ps.foldl (fun s p => s.setPort p.1 p.2) s

/-- `ip`, the data stack and the address stack of a next state, bottom to top. -/
def look : Out → Option (Cell × List Cell × List Cell)
  | .next t => some (t.ip, t.dstack.reverse, t.astack.reverse)
  | .fault _ => none
  | .refused _ => none

/-- The cell at an address in the next state. -/
def cellAfter (a : Nat) : Out → Option Cell
  | .next t => some (t.mem.read a)
  | .fault _ => none
  | .refused _ => none

/-- Some ports of a next state. -/
def portsAfter (is : List (Fin 12)) : Out → Option (List Cell)
  | .next t => some (is.map t.port)
  | .fault _ => none
  | .refused _ => none

/-- The device transactions of a next state. -/
def callsAfter : Out → Option (List DevCall)
  | .next t => some t.calls
  | .fault _ => none
  | .refused _ => none

/-- The fault an outcome is. -/
def faultOf : Out → Option Fault
  | .fault f => some f
  | .next _ => none
  | .refused _ => none

/-- The status after a load into a machine of `n` cells just reset. -/
def loadStatus (n : Nat) (file : Option (List Byte)) : Option HostStatus :=
  ((State.resetOf (Params.ofSizes n 4 4)).loadImage file).map (·.hostStatus)

/-- The map of `93_implementation_defined.md` G2: LT_JUMP and GT_JUMP exchanged. -/
def publishedMap : List Instr := opcodeMap.take 10 ++ [.gtJump, .ltJump] ++ opcodeMap.drop 12

/-- One step of a one-cell instruction at address 0 of 16 cells: the data stack afterwards. -/
def alu (op : Cell) (ds : List Cell) : Option (List Cell) := (look (step (tiny 16 [(0, op)] 0 ds))).map (·.2.1)

/-! ### Ill-formed terms are refused -/

/-- A call to an address from 0 to 30 cannot be encoded (R81). -/
theorem test_wf_call : Instr.wf (.call 5#32) = false ∧ Instr.wf (.call 30#32) = false ∧
    Instr.wf (.call 31#32) = true ∧ Instr.wf (.call (-1#32)) = true := by decide
/-- A two-cell opcode has its operand, a one-cell opcode none (R71). -/
theorem test_wf_operand : Code.wf ⟨.lit, none⟩ = false ∧ Code.wf ⟨.nop, some 0#32⟩ = false ∧
    Code.wf ⟨.call 5#32, none⟩ = false ∧ Code.wf ⟨.lit, some 5#32⟩ = true := by decide
/-- A string holds no zero cell, and an item's instruction is legal (R85). -/
theorem test_wf_item : AsmItem.wf (.string [72#32, 0#32]) = false ∧ AsmItem.wf (.code ⟨.call 5#32, none⟩) = false ∧
    AsmItem.wf (.string [72#32]) = true := by decide
/-- The map must hold every primitive once with NOP first (`00_scope.md` R4). -/
theorem test_wf_map : validOpcodeMap (opcodeMap.tail ++ [.nop]) = false ∧ validOpcodeMap (.nop :: opcodeMap.tail.tail) = false ∧
    validOpcodeMap opcodeMap = true := by decide
/-- The parameter ranges (`00_scope.md` R4). -/
theorem test_wf_params : ¬ (Params.ofSizes 0 1 1).WellFormed ∧ ¬ (Params.ofSizes (2 ^ 31 - 1) 1 1).WellFormed ∧
    ¬ (Params.ofSizes 1 0 1).WellFormed ∧ ¬ (Params.ofSizes 1 1 0).WellFormed ∧
    ¬ Params.WellFormed ⟨1, 1, 1, []⟩ ∧ (Params.ofSizes (2 ^ 31 - 2) 1 1).WellFormed := by decide
/-- The canonical form of memory: addresses rise, no entry holds 0. -/
theorem test_wf_memory : ¬ Memory.wf [(3, 1#32), (2, 1#32)] ∧ ¬ Memory.wf [(2, 0#32)] ∧
    Memory.wf [(2, 1#32), (3, 1#32)] := by decide

/-! ### Every constructor's opcode cell, written out from the table of R77 -/

theorem test_decode_stack :
    decodeOp 0x00000000#32 = .nop ∧ decodeOp 0x00000001#32 = .lit ∧ decodeOp 0x00000002#32 = .dup ∧
    decodeOp 0x00000003#32 = .drop ∧ decodeOp 0x00000004#32 = .swap ∧ decodeOp 0x00000005#32 = .push ∧
    decodeOp 0x00000006#32 = .pop := by decide
theorem test_decode_control :
    decodeOp 0x00000007#32 = .loop ∧ decodeOp 0x00000008#32 = .jump ∧ decodeOp 0x00000009#32 = .ret ∧
    decodeOp 0x0000000A#32 = .ltJump ∧ decodeOp 0x0000000B#32 = .gtJump ∧ decodeOp 0x0000000C#32 = .neJump ∧
    decodeOp 0x0000000D#32 = .eqJump ∧ decodeOp 0x00000019#32 = .zeroExit := by decide
theorem test_decode_memory : decodeOp 0x0000000E#32 = .fetch ∧ decodeOp 0x0000000F#32 = .store := by decide
theorem test_decode_alu :
    decodeOp 0x00000010#32 = .add ∧ decodeOp 0x00000011#32 = .sub ∧ decodeOp 0x00000012#32 = .mul ∧
    decodeOp 0x00000013#32 = .divmod ∧ decodeOp 0x00000014#32 = .and ∧ decodeOp 0x00000015#32 = .or ∧
    decodeOp 0x00000016#32 = .xor ∧ decodeOp 0x00000017#32 = .shl ∧ decodeOp 0x00000018#32 = .shr ∧
    decodeOp 0x0000001A#32 = .inc ∧ decodeOp 0x0000001B#32 = .dec := by decide
theorem test_decode_io :
    decodeOp 0x0000001C#32 = .inPort ∧ decodeOp 0x0000001D#32 = .outPort ∧ decodeOp 0x0000001E#32 = .wait := by decide
/-- 31 is the lowest callable address; a negative cell is a call too (R76, R81). -/
theorem test_decode_call :
    decodeOp 0x0000001F#32 = .call 31#32 ∧ decodeOp 0x00000028#32 = .call 40#32 ∧
    decodeOp 0x80000000#32 = .call minCell ∧ decodeOp 0xFFFFFFFF#32 = .call (-1#32) := by decide
/-- The same cells from the encoder. -/
theorem test_encode :
    encodeOp .nop = 0#32 ∧ encodeOp .lit = 1#32 ∧ encodeOp .ltJump = 10#32 ∧ encodeOp .store = 15#32 ∧
    encodeOp .wait = 0x1E#32 ∧ encodeOp (.call 40#32) = 40#32 ∧
    Code.encode ⟨.lit, some 72#32⟩ = [1#32, 72#32] ∧ Code.encode ⟨.dup, none⟩ = [2#32] := by decide
/-- P2's first cells: LIT 21, CALL 40; the rest of the list is given back. -/
theorem test_decode_rest :
    (decode [1#32, 0x15#32, 0x28#32]).toOption = some (⟨.lit, some 21#32⟩, [0x28#32]) ∧
    (decode [0x28#32, 0#32]).toOption = some (⟨.call 40#32, none⟩, [0#32]) := by decide
/-- The decoder rejects by name: no cell, or no operand cell. -/
theorem test_decode_rejects :
    (decode []).toOption = none ∧ (decode [7#32]).toOption = none ∧
    (match decode [7#32] with | .error e => some e | .ok _ => none) = some (.noOperand .loop) := by decide
/-- The rows of the opcode table as the host numbers their bits. -/
theorem test_table_word :
    decodeTableWord 32 0x1E = some .wait ∧ decodeTableWord 32 0x1F = some (.call 31#32) ∧
    decodeTableWord 64 0x4800000001 = some .lit ∧ decodeTableWord 32 8 = some .jump := by decide
/-- What `.string "H"`, `.zero 2` and `.cell v` stand for (R85). -/
theorem test_items :
    AsmItem.cells (.string [72#32]) = [72#32, 0#32] ∧ AsmItem.cells (.zero 2) = [0#32, 0#32] ∧
    AsmItem.cells (.cell 7#32) = [7#32] ∧ AsmItem.cells (.code ⟨.jump, some 3#32⟩) = [8#32, 3#32] := by decide
/-- From reset the placed instruction is the first that runs. -/
theorem test_first_instruction :
    look (step (State.reset.withFetchWord 64 0x4800000001)) = some (2#32, [72#32], []) ∧
    look (step (State.reset.withFetchWord 32 0)) = some (1#32, [], []) ∧
    look (step (State.reset.withFetchWord 32 7)) = none := by decide

/-! ### Stack and literal instructions -/

/-- V1 -/
theorem test_nop : look (step (tiny 16 [] 15 [7])) = some (16, [7], []) ∧
    (tiny 16 [] 16 [7]).hostStatus = .halted := by decide
/-- S1, V2 -/
theorem test_lit : look (step (tiny 16 [(0, 1), (1, 72)] 0)) = some (2, [72], []) ∧
    look (step (tiny 16 [(0, 1), (1, -1)] 0)) = some (2, [-1], []) := by decide
/-- V3, V4 -/
theorem test_lit_faults : faultOf (step (tiny 16 [(15, 1)] 15)) = some .outOfBounds ∧
    faultOf (step (tiny 16 [(0, 1), (1, 9)] 0 [1, 2, 3, 4])) = some .stackFault := by decide
/-- V5, V6, V14 -/
theorem test_dup : faultOf (step (tiny 16 [(0, 2)] 0)) = some .stackFault ∧
    faultOf (step (tiny 16 [(0, 2)] 0 [1, 2, 3, 4])) = some .stackFault ∧
    look (step (tiny 16 [(0, 2), (1, 3)] 0 [8])) = some (1, [8, 8], []) := by decide
/-- V7, V14 -/
theorem test_drop : faultOf (step (tiny 16 [(0, 3)] 0)) = some .stackFault ∧
    look (step (tiny 16 [(0, 2), (1, 3)] 1 [8, 8])) = some (2, [8], []) := by decide
/-- V8, V9 -/
theorem test_swap : faultOf (step (tiny 16 [(0, 4)] 0 [1])) = some .stackFault ∧
    look (step (tiny 16 [(0, 4)] 0 [1, 2])) = some (1, [2, 1], []) := by decide
/-- V10, V11 -/
theorem test_push : look (step (tiny 16 [(0, 5)] 0 [1, 2] [9])) = some (1, [1], [9, 2]) ∧
    faultOf (step (tiny 16 [(0, 5)] 0 [1] [1, 2, 3, 4])) = some .stackFault := by decide
/-- S3, V12, V13 -/
theorem test_pop : look (step (tiny 16 [(0, 5), (1, 6)] 1 [1] [7, 42])) = some (2, [1, 42], [7]) ∧
    faultOf (step (tiny 16 [(0, 6)] 0 [1])) = some .stackFault ∧
    faultOf (step (tiny 16 [(0, 6)] 0 [1, 2, 3, 4] [5])) = some .stackFault := by decide

/-! ### Control transfer -/

/-- C1, C3, C5 -/
theorem test_loop : look (step (tiny 16 [(8, 7), (9, 4)] 8 [15, 3])) = some (4, [15, 2], []) ∧
    look (step (tiny 16 [(8, 7), (9, 4)] 8 [15, 0])) = some (10, [15], []) ∧
    look (step (tiny 16 [(8, 7), (9, 4)] 8 [minCell])) = some (4, [maxCell], []) := by decide
/-- C6, C7, C8 -/
theorem test_loop_last_cell : look (step (tiny 16 [(15, 7)] 15 [1])) = some (17, [], []) ∧
    faultOf (step (tiny 16 [(15, 7)] 15 [2])) = some .outOfBounds ∧
    look (step (tiny 16 [(8, 7), (9, 16)] 8 [2])) = some (16, [1], []) := by decide
/-- C9, C10, C11 (S4), C12, C17 -/
theorem test_jump : look (step (tiny 16 [(0, 8), (1, 5), (5, 2)] 0)) = some (5, [], []) ∧
    look (step (tiny 16 [(0, 8), (1, 5), (6, 2)] 0)) = some (6, [], []) ∧
    look (step (tiny 16 [(0, 8), (1, 5), (7, 2)] 0)) = some (7, [], []) ∧
    look (step (tiny 16 [(0, 8), (1, 5)] 0)) = some (7, [], []) ∧
    look (step (tiny 16 [(4, 8), (5, 4)] 4)) = some (4, [], []) := by decide
/-- C13, C14, C15, C16, C18 -/
theorem test_jump_edges : faultOf (step (tiny 16 [(0, 8), (1, 16)] 0)) = some .outOfBounds ∧
    faultOf (step (tiny 16 [(0, 8), (1, 15)] 0)) = some .outOfBounds ∧
    look (step (tiny 16 [(0, 8), (1, 15), (15, 3)] 0)) = some (15, [], []) ∧
    faultOf (step (tiny 16 [(0, 8), (1, -1)] 0)) = some .outOfBounds ∧
    faultOf (step (tiny 16 [(0, 8), (1, minCell)] 0)) = some .outOfBounds := by decide
/-- C19, C20, C22 -/
theorem test_return : look (step (tiny 16 [(12, 9), (3, 3)] 12 [] [2])) = some (3, [], []) ∧
    look (step (tiny 16 [(12, 9), (5, 7)] 12 [] [2])) = some (5, [], []) ∧
    look (step (tiny 16 [(12, 9), (0, 8)] 12 [] [-1])) = some (0, [], []) := by decide
/-- C21, C23, C24, C25 -/
theorem test_return_edges : faultOf (step (tiny 16 [(12, 9)] 12)) = some .stackFault ∧
    faultOf (step (tiny 16 [(12, 9)] 12 [] [15])) = some .outOfBounds ∧
    faultOf (step (tiny 16 [(12, 9)] 12 [] [14])) = some .outOfBounds ∧
    look (step (tiny 16 [(12, 9), (15, 3)] 12 [] [14])) = some (15, [], []) := by decide
/-- C26, C27, C28, C30 -/
theorem test_ltJump : look (step (tiny 16 [(4, 10), (5, 12)] 4 [9, 3, 5])) = some (12, [9], []) ∧
    look (step (tiny 16 [(4, 10), (5, 12)] 4 [9, 5, 3])) = some (6, [9], []) ∧
    look (step (tiny 16 [(4, 10), (5, 12)] 4 [5, 5])) = some (6, [], []) ∧
    look (step (tiny 16 [(4, 10), (5, 12)] 4 [minCell, maxCell])) = some (12, [], []) := by decide
/-- C31, C32, C33 -/
theorem test_gtJump : look (step (tiny 16 [(4, 11), (5, 12)] 4 [5, 3])) = some (12, [], []) ∧
    look (step (tiny 16 [(4, 11), (5, 12)] 4 [3, 5])) = some (6, [], []) ∧
    look (step (tiny 16 [(4, 11), (5, 12)] 4 [0, -1])) = some (12, [], []) := by decide
/-- C34, C35 -/
theorem test_neJump : look (step (tiny 16 [(4, 12), (5, 12)] 4 [4, 7])) = some (12, [], []) ∧
    look (step (tiny 16 [(4, 12), (5, 12)] 4 [7, 7])) = some (6, [], []) := by decide
/-- C36, C37, C38 -/
theorem test_eqJump : look (step (tiny 16 [(4, 13), (5, 12)] 4 [7, 7])) = some (12, [], []) ∧
    look (step (tiny 16 [(4, 13), (5, 12)] 4 [4, 7])) = some (6, [], []) ∧
    faultOf (step (tiny 16 [(4, 13), (5, 12)] 4 [7])) = some .stackFault := by decide
/-- C39, C40, C41, C42 -/
theorem test_eqJump_edges : faultOf (step (tiny 16 [(15, 13)] 15 [7, 7])) = some .outOfBounds ∧
    look (step (tiny 16 [(15, 13)] 15 [7, 8])) = some (17, [], []) ∧
    look (step (tiny 16 [(4, 13), (5, 20)] 4 [7, 7])) = some (20, [], []) ∧
    look (step (tiny 16 [(4, 13), (5, -3)] 4 [7, 7])) = some (-3, [], []) := by decide
/-- C43, C44, C45, C46, C47 -/
theorem test_zeroExit : look (step (tiny 16 [(12, 25)] 12 [6, 0] [2])) = some (3, [6], []) ∧
    look (step (tiny 16 [(12, 25)] 12 [6, 2] [2])) = some (13, [6, 2], [2]) ∧
    faultOf (step (tiny 16 [(12, 25)] 12 [] [2])) = some .stackFault ∧
    faultOf (step (tiny 16 [(12, 25)] 12 [0])) = some .stackFault ∧
    look (step (tiny 16 [(12, 25)] 12 [0] [maxCell])) = some (minCell, [], []) := by decide
/-- C48, C49, C54 -/
theorem test_call : look (step (tiny 64 [(10, 40), (41, 2)] 10)) = some (41, [], [10]) ∧
    look (step (tiny 64 [(10, 31), (31, 2)] 10)) = some (31, [], [10]) ∧
    look (step (tiny 64 [(10, 40), (43, 2)] 10)) = some (42, [], [10]) := by decide
/-- C50, C51, C52, C53 -/
theorem test_call_edges : faultOf (step (tiny 64 [(10, -2)] 10)) = some .outOfBounds ∧
    faultOf (step (tiny 64 [(10, 64)] 10)) = some .outOfBounds ∧
    faultOf (step (tiny 64 [(10, 63)] 10)) = some .outOfBounds ∧
    faultOf (step (tiny 64 [(10, 40), (40, 2)] 10 [] [1, 2, 3, 4])) = some .stackFault := by decide

/-! ### Memory -/

/-- M1, M2, M3, M4, M5 -/
theorem test_fetch : look (step (tiny 16 [(6, 14), (2, 77)] 6 [2])) = some (7, [77], []) ∧
    look (step (tiny 16 [(6, 14)] 6 [6])) = some (7, [14], []) ∧
    faultOf (step (tiny 16 [(6, 14)] 6 [16])) = some .outOfBounds ∧
    faultOf (step (tiny 16 [(6, 14)] 6 [-1])) = some .outOfBounds ∧
    faultOf (step (tiny 16 [(6, 14)] 6)) = some .stackFault := by decide
/-- M6, M9, M10 -/
theorem test_store : look (step (tiny 16 [(6, 15)] 6 [9, 15, 2])) = some (7, [9], []) ∧
    cellAfter 2 (step (tiny 16 [(6, 15)] 6 [9, 15, 2])) = some 15 ∧
    cellAfter 7 (step (tiny 16 [(6, 15), (7, 27)] 6 [26, 7])) = some 26 ∧
    cellAfter 0 (step (tiny 16 [(6, 15), (0, 8)] 6 [0, 0])) = some 0 := by decide
/-- M7, M8 -/
theorem test_store_faults : faultOf (step (tiny 16 [(6, 15)] 6 [2])) = some .stackFault ∧
    faultOf (step (tiny 16 [(6, 15)] 6 [5, 16])) = some .outOfBounds := by decide

/-! ### ALU -/

/-- A2, A3, A4, A67 -/
theorem test_add : alu 16 [maxCell, 1] = some [minCell] ∧ alu 16 [minCell, -1] = some [maxCell] ∧
    alu 16 [minCell, minCell] = some [0] ∧ faultOf (step (tiny 16 [(0, 16)] 0 [1])) = some .stackFault := by decide
/-- A5, A6, A7, A8 -/
theorem test_sub : alu 17 [10, 3] = some [7] ∧ alu 17 [3, 10] = some [-7] ∧ alu 17 [minCell, 1] = some [maxCell] ∧
    alu 17 [0, minCell] = some [minCell] := by decide
/-- A10, A11, A13, A15 -/
theorem test_mul : alu 18 [65536, 65536] = some [0] ∧ alu 18 [minCell, -1] = some [minCell] ∧
    alu 18 [-3, 4] = some [-12] ∧ alu 18 [46341, 46341] = some [0x80001219] := by decide
/-- A41, A42, A43, A47, A49, A50 -/
theorem test_divmod : alu 19 [-7, 2] = some [-1, -3] ∧ alu 19 [7, -2] = some [1, -3] ∧
    alu 19 [-7, -2] = some [-1, 3] ∧ alu 19 [minCell, -1] = some [0, minCell] ∧
    alu 19 [maxCell, -1] = some [0, -2147483647] ∧ alu 19 [maxCell, minCell] = some [maxCell, 0] := by decide
/-- A52, A54 -/
theorem test_divmod_faults : faultOf (step (tiny 16 [(0, 19)] 0 [5, 0])) = some .arithmeticFault ∧
    faultOf (step (tiny 16 [(0, 19)] 0 [0])) = some .stackFault := by decide
/-- A16, A17 -/
theorem test_and : alu 20 [12, 10] = some [8] ∧ alu 20 [minCell, maxCell] = some [0] := by decide
/-- A18, A19 -/
theorem test_or : alu 21 [12, 10] = some [14] ∧ alu 21 [minCell, maxCell] = some [-1] := by decide
/-- A20, A21 -/
theorem test_xor : alu 22 [12, 10] = some [6] ∧ alu 22 [5, -1] = some [-6] := by decide
/-- A22, A23, A24, A26 -/
theorem test_shl : alu 23 [3, 4] = some [48] ∧ alu 23 [1, 31] = some [minCell] ∧ alu 23 [1, 32] = some [1] ∧
    alu 23 [1, -1] = some [minCell] := by decide
/-- A30, A31, A32, A34, A35 -/
theorem test_shr : alu 24 [-16, 2] = some [-4] ∧ alu 24 [-7, 1] = some [-4] ∧ alu 24 [minCell, 31] = some [-1] ∧
    alu 24 [maxCell, 32] = some [maxCell] ∧ alu 24 [-8, 35] = some [-1] := by decide
/-- A61, A62, A66 -/
theorem test_inc : alu 26 [-1] = some [0] ∧ alu 26 [maxCell] = some [minCell] ∧ alu 26 [] = none := by decide
/-- A64, A65 -/
theorem test_dec : alu 27 [0] = some [-1] ∧ alu 27 [minCell] = some [maxCell] := by decide

/-! ### Ports -/

/-- I1, I2 -/
theorem test_in :
    look (step (withPorts (tiny 16 [(0, 28)] 0 [1]) [(1, 65)])) = some (1, [65], []) ∧
    portsAfter [1] (step (withPorts (tiny 16 [(0, 28)] 0 [1]) [(1, 65)])) = some [0] ∧
    portsAfter [0] (step (withPorts (tiny 16 [(0, 28)] 0 [0]) [(0, 1)])) = some [0] := by decide
/-- I3, I4, I5 -/
theorem test_in_faults : faultOf (step (tiny 16 [(0, 28)] 0 [12])) = some .outOfBounds ∧
    faultOf (step (tiny 16 [(0, 28)] 0 [-1])) = some .outOfBounds ∧
    faultOf (step (tiny 16 [(0, 28)] 0)) = some .stackFault := by decide
/-- I6, I7, I8 -/
theorem test_out :
    portsAfter [2, 0] (step (withPorts (tiny 16 [(0, 29)] 0 [1, 2]) [(0, 1)])) = some [1, 0] ∧
    portsAfter [0] (step (withPorts (tiny 16 [(0, 29)] 0 [7, 0]) [(0, 1)])) = some [0] ∧
    portsAfter [11, 0] (step (withPorts (tiny 16 [(0, 29)] 0 [5, 11]) [(0, 1)])) = some [5, 0] := by decide
/-- I9, I10 -/
theorem test_out_faults : faultOf (step (tiny 16 [(0, 29)] 0 [5, 12])) = some .outOfBounds ∧
    faultOf (step (tiny 16 [(0, 29)] 0 [3])) = some .stackFault := by decide
/-- I11, I12, I18, I22 -/
theorem test_wait_idle :
    look (step (tiny 16 [(0, 30)] 0 [9])) = some (1, [9], []) ∧
    portsAfter [0, 2] (step (withPorts (tiny 16 [(0, 30)] 0 [72]) [(0, 1), (2, 1)])) = some [1, 1] ∧
    portsAfter [0, 2] (step (withPorts (tiny 16 [(0, 30)] 0 [72]) [(2, 2)])) = some [0, 2] ∧
    portsAfter [0, 5] (step (withPorts (tiny 16 [(0, 30)] 0 [72]) [(5, 7)])) = some [0, 7] := by decide
/-- S6, I14, I15, I16, I17, I24 -/
theorem test_wait_console :
    callsAfter (step (withPorts (tiny 16 [(0, 30)] 0 [72]) [(2, 1)])) = some [.consoleEmit 72] ∧
    callsAfter (step (withPorts (tiny 16 [(0, 30)] 0 [-1]) [(2, 1)])) = some [.consoleClear] ∧
    callsAfter (step (withPorts (tiny 16 [(0, 30)] 0 [0]) [(2, 1)])) = some [.consoleEmit 0] ∧
    faultOf (step (withPorts (tiny 16 [(0, 30)] 0) [(2, 1)])) = some .stackFault ∧
    portsAfter [0, 2, 5] (step (withPorts (tiny 16 [(0, 30)] 0 [72]) [(2, 1), (5, -5)])) = some [1, 0, -5] := by decide
/-- S8, I20, I23 -/
theorem test_wait_query :
    look (step (withPorts (tiny 16 [(0, 30)] 0 [10, 20, 30]) [(5, -5)])) = some (1, [10, 20, 30], []) ∧
    portsAfter [5, 0] (step (withPorts (tiny 16 [(0, 30)] 0 [10, 20, 30]) [(5, -5)])) = some [3, 1] ∧
    portsAfter [4, 0] (step (withPorts (tiny 16 [(0, 30)] 0) [(4, 1)])) = some [0, 1] ∧
    callsAfter (step (withPorts (tiny 16 [(0, 30)] 0) [(4, 1)])) = some [.storage 1 [.image [(0, 30)]]] := by decide
/-- I21: `ip` is N + 1 after the step, whatever is left in port 5. -/
theorem test_wait_halt :
    look (step (withPorts (tiny 16 [(0, 30)] 0) [(5, -9)])) = some (17, [], []) ∧
    portsAfter [0] (step (withPorts (tiny 16 [(0, 30)] 0) [(5, -9)])) = some [1] := by decide
/-- I13, I19: the pass goes to the input device first, and what it delivers is for the device to say. -/
theorem test_wait_input : portPass (withPorts (tiny 16 [(0, 30)] 0 [72]) [(1, 1), (2, 1)]) =
    serviceInput (withPorts (tiny 16 [(0, 30)] 0 [72]) [(1, 1), (2, 1)]) := rfl

/-! ### Fetch, halt, reset and the boot image -/

/-- E1, E2, E3, E5, E6 -/
theorem test_halt : (tiny 16 [] 16).hostStatus = .halted ∧ (tiny 16 [] 1000).hostStatus = .halted ∧
    look (step (tiny 16 [] 1000 [5])) = some (1000, [5], []) ∧
    faultOf (step (tiny 16 [] (-1))) = some .outOfBounds ∧
    faultOf (step (tiny 16 [(3, 31)] 3)) = some .outOfBounds ∧
    faultOf (step (tiny 16 [(3, -1)] 3)) = some .outOfBounds := by decide
/-- S5: the load, the cells, and the save of three cells. -/
theorem test_image :
    ((State.resetOf (Params.ofSizes 16 4 4)).loadImage (some [0, 0, 0, 8, 0, 0, 0, 3, 0xFF, 0xFF, 0xFF, 0xF7])).map
      (·.mem) = some [(0, 8#32), (1, 3#32), (2, -9#32)] ∧
    State.saveImage (tiny 16 [(0, 8), (1, 3), (2, -9)] 0) 3 = [0, 0, 0, 8, 0, 0, 0, 3, 0xFF, 0xFF, 0xFF, 0xF7] := by
  decide
/-- E7, E8, E9; no file; an empty file; a file too long -/
theorem test_load_status :
    loadStatus 16 (some [0, 0, 0, 0]) = some .bootFailed ∧ loadStatus 16 (some [0, 0, 0, 1, 0]) = some .bootFailed ∧
    loadStatus 16 none = some .bootFailed ∧ loadStatus 16 (some []) = some .bootFailed ∧
    loadStatus 1 (some [0, 0, 0, 1, 0, 0, 0, 1]) = some .bootFailed ∧
    loadStatus 16 (some [0x80, 0, 0, 0]) = some .running ∧
    ((State.resetOf (Params.ofSizes 16 4 4)).loadImage (some [0x80, 0, 0, 0])).bind (fun t => faultOf (step t)) =
      some .outOfBounds := by decide
/-- A load is given after a reset only; FAULTED and BOOT_FAILED are left by reset only (R260, R262). -/
theorem test_load_after_reset_only :
    (tiny 16 [(0, 8)] 0).loadImage (some [0, 0, 0, 1]) = none ∧
    ({ tiny 16 [] 0 with status := .faulted .stackFault } : State).loadImage (some [0, 0, 0, 1]) = none ∧
    (tiny 16 [] 0).bootFail.loadImage (some [0, 0, 0, 1]) = none ∧
    (((tiny 16 [] 0).bootFail.hostReset.loadImage (some [0, 0, 0, 1])).map (·.hostStatus)) = some .running := by decide
/-- A save writes no more cells than memory has (log entry 22). -/
theorem test_save_count : State.saveImage (tiny 1 [(0, 8)] 0) 3 = [0, 0, 0, 8] := by decide
/-- A machine with another opcode map runs by that map: with the map of `93_implementation_defined.md` G2 the cell 10 is
GT_JUMP (C31). -/
theorem test_other_opcode_map :
    look (step { tiny 16 [(4, 10), (5, 12)] 4 [5, 3] with params := ⟨16, 4, 4, publishedMap⟩ }) = some (12, [], []) ∧
    look (step (tiny 16 [(4, 10), (5, 12)] 4 [5, 3])) = some (6, [], []) := by decide
/-- Arguments of a request: a mode on top of a path's address, "Hi" at 3; too few cells. -/
theorem test_takeArgs :
    look (takeArgs [.cell, .string .stack] (tiny 16 [(3, 72), (4, 105)] 0 [9, 3, 1]) fun args s =>
      if args = [.cell 1, .string [72, 105]] then .next s else .fault .arithmeticFault) = some (0, [9], []) ∧
    faultOf (takeArgs [.cell, .string .stack] (tiny 16 [(3, 72)] 0 [3]) fun _ s => .next s) = some .stackFault ∧
    faultOf (takeArgs [.string (.port .query)] (withPorts (tiny 16 [] 0) [(5, -1)]) fun _ s => .next s) =
      some .outOfBounds := by decide
/-- A string read by a service: "Hi" at 3; a scan that leaves memory. -/
theorem test_string :
    scanString (tiny 16 [(3, 72), (4, 105)] 0).mem (16 - 3) 3 = some [72, 105] ∧
    scanString (tiny 4 [(3, 72)] 0).mem (4 - 3) 3 = none := by decide
/-- The host's definition of the machine. -/
theorem test_core : Sys2Proof.core.reset = State.reset ∧ Sys2Proof.core.step = step := ⟨rfl, rfl⟩

/-! ### States that meet the hypotheses of the statements, each clause at a boundary of its range -/

/-- A waiting machine of 16 cells with the given ports and data stack. -/
def waiting (ps : List (Fin 12 × Cell)) (ds : List Cell := []) : State := withPorts (tiny 16 [(0, 30)] 0 ds) ps

theorem witness_EncodedSequenceDecodes : validOpcodeMap publishedMap = true ∧
    ∀ c ∈ [(⟨.lit, some (-1)⟩ : Code), ⟨.call 31, none⟩, ⟨.wait, none⟩, ⟨.eqJump, some 0⟩], c.wf = true := by decide
theorem witness_DecodedCellsReencode : validOpcodeMap publishedMap = true ∧
    (decode [1, 72, 9] publishedMap).toOption = some (⟨.lit, some 72⟩, [9]) ∧
    (decode [31] publishedMap).toOption = some (⟨.call 31, none⟩, []) := by decide
theorem witness_EveryCellDispatches : validOpcodeMap (tiny 16 [] 0).params.opcodeMap = true ∧
    IsPrimitiveNumber 0 ∧ IsPrimitiveNumber 30 ∧ 31 ≤ (31#32).toInt ∧ (-1#32).toInt < 0 ∧ minCell.toInt < 0 := by decide
/-- A valid map that is not the spec's. -/
theorem witness_AnyOpcodeMapRoundTrips :
    validOpcodeMap (State.resetOf ⟨16, 4, 4, publishedMap⟩).params.opcodeMap = true ∧ publishedMap ≠ opcodeMap ∧
    Instr.wf (.call 31) = true := by decide
theorem witness_StepRunsFetchedInstruction :
    (tiny 16 [] 15).status = .running ∧ (tiny 16 [] 15).ip.toInt < (tiny 16 [] 15).params.memCells ∧
    0 ≤ (tiny 16 [] 15).ip.toInt ∧ 0 ≤ (tiny 16 [] 0).ip.toInt ∧
    (tiny 16 [] (-1)).status = .running ∧ (tiny 16 [] (-1)).ip.toInt < 0 := by decide
theorem witness_StoppedMachineKeepsState :
    (tiny 16 [] 16).status = .running ∧ ((tiny 16 [] 16).params.memCells : Int) ≤ (tiny 16 [] 16).ip.toInt ∧
    ({ tiny 16 [] 0 with status := .faulted .stackFault } : State).status = .faulted .stackFault ∧
    (tiny 16 [] 0).bootFail.status = .bootFailed := by decide
theorem witness_FaultEndsRunUntilReset :
    step (tiny 16 [(0, 3)] 0) = .fault .stackFault ∧ step (tiny 16 [] (-1)) = .fault .outOfBounds ∧
    step (tiny 16 [(0, 19)] 0 [5, 0]) = .fault .arithmeticFault := ⟨rfl, rfl, rfl⟩
theorem witness_OnlyUndefinedRequestsAreRefused :
    exec .wait (waiting [(4, 3)]) = .refused (.undefinedStorageCode 3) ∧
    posted (waiting [(4, 3)]) = some 4 ∧ 2 < ((waiting [(4, 3)]).port 4).toInt := ⟨rfl, by decide, by decide⟩
theorem witness_ResetMeetsInvariants : (Params.ofSizes 1 1 1).WellFormed := by decide
theorem witness_NopHasNoEffect : validOpcodeMap (tiny 16 [] 0).params.opcodeMap = true ∧
    validOpcodeMap publishedMap = true := by decide
theorem witness_DataUnderflowRaisesStackFault :
    (tiny 16 [] 0 [1]).dstack.length < dataTaken .store ∧ (tiny 16 [] 0).dstack.length < dataTaken .dup := by decide
theorem witness_ArithmeticFaultOnlyFromZeroDivisor :
    exec .divmod (tiny 16 [] 0 [5, 0]) = .fault .arithmeticFault ∧
    (tiny 16 [] 0 [5, 0]).dstack = 0#32 :: 5 :: [] := ⟨rfl, rfl⟩
theorem witness_EveryStepKeepsInvariant :
    ∃ t, (tiny 16 [(6, 15)] 6 [9, 15, 2]).Inv ∧ step (tiny 16 [(6, 15)] 6 [9, 15, 2]) = .next t :=
  ⟨_, by decide, rfl⟩
theorem witness_EveryStepKeepsHandshake :
    ∃ t, (withPorts (tiny 16 [(0, 29)] 0 [5, 11]) [(0, 1)]).Handshake ∧
      step (withPorts (tiny 16 [(0, 29)] 0 [5, 11]) [(0, 1)]) = .next t := ⟨_, by decide, rfl⟩
/-- For the clauses in turn: an instruction that may change nothing listed, and one that may change each thing. -/
theorem witness_InstructionsChangeOnlyWhatTheyOwn :
    (look (exec .add (tiny 16 [] 0 [1, 2]))).isSome ∧ (look (exec .store (tiny 16 [] 0 [1, 2]))).isSome ∧
    (look (exec .push (tiny 16 [] 0 [1, 2]))).isSome ∧ (look (exec .outPort (tiny 16 [] 0 [1, 2]))).isSome ∧
    (look (exec .lit (tiny 16 [] 0 [1, 2]))).isSome ∧ (look (exec .wait (waiting [(2, 1)] [72]))).isSome ∧
    (look (exec (.call 31) (tiny 64 [] 0))).isSome := by decide
theorem witness_DataStackBelowOperandsUnchanged :
    Instr.divmod ∉ [Instr.loop, .zeroExit, .wait] ∧ (look (exec .divmod (tiny 16 [] 0 [1, 2, 3]))).isSome ∧
    (look (exec .pop (tiny 16 [] 0 [1, 2, 3] [4]))).isSome := by decide
theorem witness_LitPushesOperandCell :
    (tiny 16 [] 14).InBounds ((tiny 16 [] 14).ip + 1#32) ∧ (tiny 16 [] 14 [1, 2, 3]).dstack.length < 4 ∧
    ¬ (tiny 16 [] 15).InBounds ((tiny 16 [] 15).ip + 1#32) ∧ (tiny 16 [] 15).dstack.length < 4 ∧
    (tiny 16 [] 14 [1, 2, 3, 4]).InBounds ((tiny 16 [] 14).ip + 1#32) ∧
    (tiny 16 [] 14 [1, 2, 3, 4]).params.dsCap ≤ (tiny 16 [] 14 [1, 2, 3, 4]).dstack.length := by decide
theorem witness_DupCopiesTop :
    (tiny 16 [] 0 [1, 2, 3]).dstack = 3#32 :: [2, 1] ∧ (tiny 16 [] 0 [1, 2, 3]).dstack.length < 4 ∧
    (tiny 16 [] 0).dstack = [] ∧
    (tiny 16 [] 0 [1, 2, 3, 4]).params.dsCap ≤ (tiny 16 [] 0 [1, 2, 3, 4]).dstack.length := by decide
theorem witness_DropRemovesTop : (tiny 16 [] 0 [1]).dstack = 1#32 :: [] ∧ (tiny 16 [] 0).dstack = [] := by decide
theorem witness_SwapExchangesTopTwo :
    (tiny 16 [] 0 [1, 2, 3, 4]).dstack = 4#32 :: 3 :: [2, 1] ∧
    (tiny 16 [] 0 [1, 2, 3, 4]).dstack.length ≤ (tiny 16 [] 0 [1, 2, 3, 4]).params.dsCap ∧
    (tiny 16 [] 0 [1]).dstack.length < 2 := by decide
theorem witness_PushMovesToAddressStack :
    (tiny 16 [] 0 [1] [1, 2, 3]).dstack = 1#32 :: [] ∧ (tiny 16 [] 0 [1] [1, 2, 3]).astack.length < 4 ∧
    (tiny 16 [] 0).dstack = [] ∧ (tiny 16 [] 0 [1] [1, 2, 3, 4]).params.asCap ≤ 4 ∧
    (tiny 16 [] 0 [1] [1, 2, 3, 4]).astack.length = 4 ∧ landing (tiny 16 [(15, 3)] 0 [14]) (14#32 + 1#32) = some 15 ∧
    (tiny 16 [(15, 3)] 0 [14]).dstack = 14#32 :: [] ∧ (tiny 16 [] 0 [0, 14]).dstack = 14#32 :: 0#32 :: [] := by decide
theorem witness_PopMovesToDataStack :
    (tiny 16 [] 0 [1, 2, 3] [5]).astack = 5#32 :: [] ∧ (tiny 16 [] 0 [1, 2, 3] [5]).dstack.length < 4 ∧
    (tiny 16 [] 0).astack = [] ∧ (tiny 16 [] 0 [1, 2, 3, 4] [5]).params.dsCap ≤ 4 ∧
    (tiny 16 [] 0 [1, 2, 3, 4] [5]).dstack.length = 4 ∧ (tiny 16 [] 0 [1, 2, 3, 4] [5]).dstack ≠ [] ∧
    (tiny 16 [] 0 [1, 2, 3, 4] [5]).astack.length < (tiny 16 [] 0 [1, 2, 3, 4] [5]).params.asCap := by decide
theorem witness_SkipPassesAtMostTwoZeroCells :
    landing (tiny 16 [(5, 2)] 0) 5 = some 5 ∧ landing (tiny 16 [(6, 2)] 0) 5 = some 6 ∧
    landing (tiny 16 [] 0) 14 = some 16 ∧ landing (tiny 16 [] 0) 15 = none ∧ landing (tiny 16 [] 0) 16 = none := by decide
theorem witness_LoopCountsDown :
    (tiny 16 [] 14 [2]).dstack = 2#32 :: [] ∧ 0 < (2#32 - 1#32).toInt ∧ 0 < (minCell - 1#32).toInt ∧
    (tiny 16 [] 14 [2]).InBounds ((tiny 16 [] 14 [2]).ip + 1#32) ∧
    ¬ (tiny 16 [] 15 [2]).InBounds ((tiny 16 [] 15 [2]).ip + 1#32) ∧
    (tiny 16 [] 15 [1]).dstack = 1#32 :: [] ∧ (1#32 - 1#32).toInt ≤ 0 ∧
    (tiny 16 [] 15 [1]).dstack.length ≤ (tiny 16 [] 15 [1]).params.dsCap := by decide
theorem witness_JumpLandsOnOperand :
    (tiny 16 [(1, 15), (15, 3)] 0).InBounds 1 ∧
    landing (tiny 16 [(1, 15), (15, 3)] 0) ((tiny 16 [(1, 15), (15, 3)] 0).mem.read 1) = some 15 ∧
    landing (tiny 16 [(1, 15)] 0) ((tiny 16 [(1, 15)] 0).mem.read 1) = none ∧
    ¬ (tiny 16 [] 15).InBounds ((tiny 16 [] 15).ip + 1#32) := by decide
theorem witness_ReturnResumesAfterCaller :
    (tiny 16 [(15, 3)] 0 [] [14]).astack = 14#32 :: [] ∧ landing (tiny 16 [(15, 3)] 0 [] [14]) (14#32 + 1#32) = some 15 ∧
    (tiny 16 [] 0 [] [15]).astack = 15#32 :: [] ∧ landing (tiny 16 [] 0 [] [15]) (15#32 + 1#32) = none ∧
    (tiny 16 [] 0).astack = [] := by decide
theorem witness_ConditionalJumpsCompareSigned :
    (tiny 16 [] 14 [-1, 0]).dstack = 0#32 :: (-1#32) :: [] ∧ (tiny 16 [] 14 [-1, 0]).InBounds ((tiny 16 [] 14).ip + 1) ∧
    (-1#32).toInt < (0#32).toInt ∧ ¬ (-1#32).toInt > (0#32).toInt ∧ (-1#32) ≠ 0#32 ∧
    (tiny 16 [] 14 [7, 7]).dstack = 7#32 :: 7 :: [] ∧ ¬ (tiny 16 [] 15 [7, 7]).InBounds ((tiny 16 [] 15).ip + 1#32) ∧
    (tiny 16 [] 14 [7]).dstack.length < 2 := by decide
theorem witness_UntakenBranchReadsNoOperand :
    ¬ (tiny 16 [] 15).InBounds ((tiny 16 [] 15).ip + 1#32) ∧ (tiny 16 [] 15 [7, 7]).dstack = 7#32 :: 7#32 :: [] ∧
    (7#32).toInt ≤ (7#32).toInt ∧ (8 : Cell) ≠ 7 ∧ (tiny 16 [] 15 [8, 7]).dstack = 7#32 :: 8#32 :: [] := by decide
theorem witness_ZeroExitReturnsEarly :
    (tiny 16 [] 0 [-1]).dstack = (-1#32) :: [] ∧ (-1#32) ≠ 0#32 ∧ (tiny 16 [] 0 [0] [2]).dstack = 0#32 :: [] ∧
    (tiny 16 [] 0 [0] [2]).astack = 2#32 :: [] ∧ (tiny 16 [] 0 [0]).astack = [] ∧ (tiny 16 [] 0).dstack = [] := by decide
theorem witness_CallPushesItsOwnAddress :
    (tiny 64 [(31, 2)] 10 [] [1, 2, 3]).astack.length < 4 ∧ landing (tiny 64 [(31, 2)] 10 [] [1, 2, 3]) 31 = some 31 ∧
    landing (tiny 64 [] 10) 63 = none ∧ landing (tiny 64 [] 10) 64 = none ∧ landing (tiny 64 [] 10) (-1) = none ∧
    (tiny 64 [] 10 [] [1, 2, 3, 4]).params.asCap ≤ (tiny 64 [] 10 [] [1, 2, 3, 4]).astack.length ∧
    landing (tiny 64 [] 10 [] [1, 2, 3, 4]) 40 ≠ none ∧ landing (tiny 64 [(31, 2)] 10) (10#32 + 1#32) = some 13 ∧
    30 < (31#32).toInt ∧ (-1#32).toInt < 0 := by decide
theorem witness_FirstFailureGivesTheFault :
    ¬ (tiny 16 [] 15 [1, 2, 3, 4]).InBounds ((tiny 16 [] 15).ip + 1#32) ∧
    (tiny 16 [] 15 [1, 2, 3, 4]).params.dsCap ≤ (tiny 16 [] 15 [1, 2, 3, 4]).dstack.length ∧
    (tiny 64 [] 10 [] [1, 2, 3, 4]).params.asCap ≤ (tiny 64 [] 10 [] [1, 2, 3, 4]).astack.length ∧
    landing (tiny 64 [] 10 [] [1, 2, 3, 4]) 64 = none := by decide
theorem witness_FetchReplacesAddressByCell :
    (tiny 16 [] 0 [15]).dstack = 15#32 :: [] ∧ 0 ≤ (15#32).toInt ∧ (15#32).toInt < (tiny 16 [] 0 [15]).params.memCells ∧
    ((tiny 16 [] 0 [16]).params.memCells : Int) ≤ (16#32).toInt ∧ (-1#32).toInt < 0 ∧ (tiny 16 [] 0).dstack = [] := by decide
theorem witness_StoreWritesOneCell :
    (tiny 16 [(6, 15)] 6 [7, 15]).dstack = 15#32 :: 7 :: [] ∧ (tiny 16 [(6, 15)] 6 [7, 15]).mem.wf ∧
    (15#32).toInt < (tiny 16 [(6, 15)] 6 [7, 15]).params.memCells ∧
    ((tiny 16 [] 0 [7, 16]).params.memCells : Int) ≤ (16#32).toInt ∧ (-1#32).toInt < 0 ∧
    (tiny 16 [] 0 [1]).dstack.length < 2 := by decide
theorem witness_MemoryWriteSetsOneCell :
    (tiny 16 [(6, 15)] 6).mem.wf ∧ 0 ≤ (0#32).toInt ∧ (15#32).toInt < (tiny 16 [(6, 15)] 6).params.memCells ∧
    (-1#32).toInt < 0 ∧ ((tiny 16 [(6, 15)] 6).params.memCells : Int) ≤ (16#32).toInt := by decide
theorem witness_StoreIsSeenByNextFetch :
    (tiny 16 [(14, 15)] 14 [26, 15]).mem.wf ∧ (tiny 16 [(14, 15)] 14 [26, 15]).status = .running ∧
    (tiny 16 [(14, 15)] 14 [26, 15]).InBounds 14 ∧ (tiny 16 [(14, 15)] 14 [26, 15]).InBounds (14 + 1#32) ∧
    (tiny 16 [(14, 15)] 14 [26, 15]).dispatch ((tiny 16 [(14, 15)] 14 [26, 15]).mem.read 14) = .store ∧
    (tiny 16 [(14, 15)] 14 [26, 15]).dstack = (14 + 1#32) :: 26 :: [] := by decide
theorem witness_StringReadStopsAtZero :
    (tiny 16 [(13, 72), (14, 105)] 0).InBounds 13 ∧ (13#32).toNat + 2 < 16 ∧
    (∀ j < 2, (tiny 16 [(13, 72), (14, 105)] 0).mem.read ((13#32).toNat + j) ≠ 0#32) ∧
    (tiny 16 [(13, 72), (14, 105)] 0).mem.read ((13#32).toNat + 2) = 0#32 ∧
    (tiny 16 [(15, 72)] 0).InBounds 15 ∧ (∀ a < 16, 15 ≤ a → (tiny 16 [(15, 72)] 0).mem.read a ≠ 0#32) ∧
    ¬ (tiny 16 [] 0).InBounds 16 := by decide
theorem witness_AddSubMulWrap :
    (tiny 16 [] 0 [1, 2, maxCell, 1]).dstack = 1#32 :: maxCell :: [2, 1] ∧
    (tiny 16 [] 0 [1, 2, maxCell, 1]).dstack.length ≤ (tiny 16 [] 0 [1, 2, maxCell, 1]).params.dsCap ∧
    (tiny 16 [] 0 [1]).dstack.length < 2 := by decide
theorem witness_IncDecWrap :
    (tiny 16 [] 0 [maxCell]).dstack = maxCell :: [] ∧ (tiny 16 [] 0 [maxCell]).dstack.length ≤ 4 ∧
    maxCell.toInt = 2 ^ 31 - 1 ∧ minCell.toInt = -2 ^ 31 := by decide
/-- The same states as for ADD meet the hypotheses of `TwoToOne` here. -/
theorem witness_BitwiseInstructions : (tiny 16 [] 0 [12, 10]).dstack = 10#32 :: 12 :: [] ∧
    (tiny 16 [] 0 [12, 10]).dstack.length ≤ (tiny 16 [] 0 [12, 10]).params.dsCap := by decide
theorem witness_ShiftLaws : (tiny 16 [] 0 [-7, 31]).dstack = 31#32 :: (-7) :: [] ∧
    (tiny 16 [] 0 [-7, 31]).dstack.length ≤ (tiny 16 [] 0 [-7, 31]).params.dsCap ∧ (31#32).toNat % 32 = 31 := by decide
theorem witness_DivmodTruncates :
    (tiny 16 [] 0 [minCell, -1]).dstack = (-1#32) :: minCell :: [] ∧ (-1#32) ≠ 0#32 ∧
    (tiny 16 [] 0 [-7, 2]).dstack = 2#32 :: (-7) :: [] ∧ ¬ ((-7 : Cell) = minCell ∧ 2#32 = -1#32) ∧
    (tiny 16 [] 0 [5, 0]).dstack = 0#32 :: 5 :: [] ∧ (tiny 16 [] 0 [5, 0]).dstack.length ≤ 4 := by decide
theorem witness_InReadsAndZeroesPort :
    (tiny 16 [] 0 [11]).dstack = 11#32 :: [] ∧ (11#32).toInt = ((11 : Fin 12).val : Int) ∧
    (tiny 16 [] 0 [11]).dstack.length ≤ (tiny 16 [] 0 [11]).params.dsCap ∧ 11 < (12#32).toInt ∧ (-1#32).toInt < 0 ∧
    (tiny 16 [] 0 [12]).dstack = 12#32 :: [] ∧ (tiny 16 [] 0).dstack = [] := by decide
theorem witness_OutWritesPortAndClearsHandshake :
    (tiny 16 [] 0 [7, 0]).dstack = 0#32 :: 7 :: [] ∧ (0#32).toInt = ((0 : Fin 12).val : Int) ∧
    (tiny 16 [] 0 [7, 12]).dstack = 12#32 :: 7 :: [] ∧ 11 < (12#32).toInt ∧ (tiny 16 [] 0 [7]).dstack.length < 2 := by decide
theorem witness_BusyPassDoesNothing : (waiting [(0, 1), (2, 1)]).port 0 ≠ 0#32 := by decide
theorem witness_IdlePassDoesNothing :
    (waiting [(1, 2), (2, -1)]).port 1 ≠ 1#32 ∧ (waiting [(1, 2), (2, -1)]).port 2 ≠ 1#32 ∧
    (waiting [(1, 2), (2, -1)]).port 4 = 0#32 ∧ 0 ≤ ((waiting [(5, 0)]).port 5).toInt := by decide
theorem witness_InputRequestDeliversByteOrHolds :
    (waiting [(1, 1)]).port 0 = 0#32 ∧ (waiting [(1, 1)]).port 1 = 1#32 ∧ (waiting [(1, 1)]).status = .running ∧
    (waiting [(1, 1)]).InBounds (waiting [(1, 1)]).ip ∧
    (waiting [(1, 1)]).dispatch ((waiting [(1, 1)]).mem.read (waiting [(1, 1)]).ip.toNat) = .wait := by decide
theorem witness_ConsoleRequestEmitsTop :
    (waiting [(2, 1)] [-1]).port 0 = 0#32 ∧ (waiting [(2, 1)] [-1]).port 1 ≠ 1#32 ∧
    (waiting [(2, 1)] [-1]).port 2 = 1#32 ∧ (waiting [(2, 1)] [-1]).dstack = (-1#32) :: [] ∧
    (waiting [(2, 1)]).dstack = [] := by decide
theorem witness_SaveRequestHandsOverMemory :
    posted (waiting [(4, 1)]) = some 4 ∧ (waiting [(4, 1)]).port 4 = 1#32 := by decide
theorem witness_NameAndOpenRequestsRespond :
    posted (waiting [(4, 2)]) = some 4 ∧ (waiting [(4, 2)]).port 4 = 2#32 ∧
    posted (waiting [(4, -1)]) = some 4 ∧ (waiting [(4, -1)]).port 4 = -1#32 := by decide
theorem witness_FileRequestsFollowTheTable :
    posted (waiting [(4, -2)]) = some 4 ∧ ((waiting [(4, -2)]).port 4).toInt < 0 ∧ (waiting [(4, -2)]).port 4 ≠ -1#32 ∧
    posted (waiting [(4, minCell)]) = some 4 ∧ (minCell).toInt < 0 := by decide
theorem witness_DepthQueryAnswersDepth :
    posted (waiting [(5, -5)] [10, 20, 30]) = some 5 ∧ (waiting [(5, -5)] [10, 20, 30]).port 5 = -5#32 ∧
    (waiting [(5, -5)] [10, 20, 30]).dstack.length < 2 ^ 31 := by decide
theorem witness_OtherQueriesFollowTheTable :
    posted (waiting [(5, -1)]) = some 5 ∧ (waiting [(5, -1)]).port 5 ≠ -5#32 ∧ (waiting [(5, -1)]).port 5 ≠ -9#32 ∧
    (waiting [(5, -1)]).params.WellFormed ∧ (waiting [(5, -1)]).astack.length < 2 ^ 31 := by decide
theorem witness_HaltQueryStopsTheMachine :
    posted (waiting [(5, -9)]) = some 5 ∧ (waiting [(5, -9)]).port 5 = -9#32 ∧ (waiting [(5, -9)]).params.WellFormed ∧
    (waiting [(5, -9)]).status = .running := by decide
/-- A service that ends, and a pass that services nothing. -/
theorem witness_ServiceEndsWithHandshakeSet :
    (look (exec .wait (waiting [(2, 1)] [72]))).isSome ∧ posted (waiting [(2, 1)] [72]) ≠ none ∧
    (look (exec .wait (waiting [(0, 1)]))).isSome ∧ posted (waiting [(0, 1)]) = none := by decide
theorem witness_PassTouchesOneRequestOnly :
    (look (exec .wait (waiting [(2, 1), (5, -5)] [72]))).isSome ∧ (5 : Fin 12) ≠ 0 ∧
    posted (waiting [(2, 1), (5, -5)] [72]) ≠ some 5 := by decide
/-- A file; and an image of three words whose last is zero, saved as two cells and as three. -/
theorem witness_ImageRoundTrips : imageWords [0xFF, 0xFF, 0xFF, 0xF7] = some [-9] ∧
    [8#32, -9, 0].length ≤ (Params.ofSizes 3 4 4).memCells ∧ [8#32, -9, 0].getD 0 0#32 ≠ 0#32 ∧
    2 ≤ (Params.ofSizes 3 4 4).memCells ∧ (∀ i, 2 ≤ i → [8#32, -9, 0].getD i 0#32 = 0#32) :=
  ⟨by decide, by decide, by decide, by decide, fun
    | 0, h => absurd h (by decide)
    | 1, h => absurd h (by decide)
    | 2, _ => rfl
    | _ + 3, _ => rfl⟩
theorem witness_LoadPlacesImageWords :
    [8#32, 3#32].length ≤ (Params.ofSizes 2 4 4).memCells ∧ [8#32, 3#32].getD 0 0#32 ≠ 0#32 := by decide
/-- A partial word; too many words; a first word of zero; an empty file. -/
theorem witness_FailedLoadRunsNothing :
    [(0 : Byte)].length % 4 ≠ 0 ∧ (Params.ofSizes 1 4 4).memCells < [8#32, 3#32].length ∧
    [0#32, 3#32].getD 0 0#32 = 0#32 ∧ ([] : List Cell).getD 0 0#32 = 0#32 := by decide

end Sys2Proof.Tests
end

section
/-! Proofs for `10_state.md` R45: the words of an image file are the words it was made of, and loading them into a
machine just reset writes them from address 0 and nothing else. -/

namespace Sys2Proof.Machine

/-- The bytes of a cell, put together again, are that cell (`20_memory.md` R64 and R65 use one byte order). -/
theorem cellOfBytes_extractLsb' (v : Cell) :
    cellOfBytes (v.extractLsb' 24 8) (v.extractLsb' 16 8) (v.extractLsb' 8 8) (v.extractLsb' 0 8) = v := by
  have top_two : v.extractLsb' 24 8 ++ v.extractLsb' 16 8 = v.extractLsb' 16 16 :=
    BitVec.extractLsb'_append_extractLsb'_eq_extractLsb' rfl
  have top_three : v.extractLsb' 16 16 ++ v.extractLsb' 8 8 = v.extractLsb' 8 24 :=
    BitVec.extractLsb'_append_extractLsb'_eq_extractLsb' rfl
  have all_four : v.extractLsb' 8 24 ++ v.extractLsb' 0 8 = v.extractLsb' 0 32 :=
    BitVec.extractLsb'_append_extractLsb'_eq_extractLsb' rfl
  rw [cellOfBytes_eq_append, top_two, top_three, all_four, BitVec.extractLsb'_eq_self]

/-- Reading a file made of words gives back those words. -/
theorem imageWords_imageBytes (ws : List Cell) : imageWords (imageBytes ws) = some ws := by
  induction ws with
  | nil => rfl
  | cons v ws ih =>
    have first_word : imageBytes (v :: ws) = v.extractLsb' 24 8 :: v.extractLsb' 16 8 :: v.extractLsb' 8 8 ::
        v.extractLsb' 0 8 :: imageBytes ws := rfl
    rw [first_word, imageWords, ih, Option.map_some, cellOfBytes_extractLsb']

/-- Words written from address 0 on into empty memory stand there, and every cell beyond them is 0. -/
theorem Memory.read_writeAll_zero_nil (ws : List Cell) (i : Nat) :
    (Memory.writeAll [] 0 ws).read i = ws.getD i 0#32 := by
  rw [Memory.read_writeAll Memory.wf_nil]
  by_cases hi : i < ws.length
  · simp [hi]
  · simp [hi]

/-- Loading words that fit, the first not 0, into a machine just reset changes memory only. -/
theorem State.loadWords_resetOf {p : Params} {ws : List Cell} (fits : ws.length ≤ p.memCells)
    (boots : ws.getD 0 0#32 ≠ 0#32) :
    (State.resetOf p).loadWords ws = { State.resetOf p with mem := Memory.writeAll [] 0 ws } :=
  if_pos ⟨fits, by rwa [← Memory.read_writeAll_zero_nil] at boots⟩

/-- Loading the file of some words into a machine just reset is loading those words. -/
theorem State.loadImage_resetOf_imageBytes (p : Params) (ws : List Cell) :
    (State.resetOf p).loadImage (some (imageBytes ws)) = some ((State.resetOf p).loadWords ws) := by
  rw [State.loadImage_of_justReset (State.justReset_resetOf p), Option.bind_some, imageWords_imageBytes]

/-- Settles O59: the memory after the load is the image's words written from address 0 into the empty memory of the
reset state. -/
theorem loadPlacesImageWords : Obligations.LoadPlacesImageWords := by
  intro p ws fits boots
  refine ⟨Memory.writeAll [] 0 ws, ?_, Memory.read_writeAll_zero_nil ws, Memory.wf_writeAll Memory.wf_nil 0 ws, ?_⟩
  · rw [State.loadImage_resetOf_imageBytes, State.loadWords_resetOf fits boots]
  · exact Memory.bounded_writeAll (by simp) 0 ws (by simpa using fits)

end Sys2Proof.Machine
end

section
/-! Proofs for `20_memory.md` R67: four bytes and the cell they make determine each other, and the cells a save writes
place in memory, on reload, what the load before it placed there. -/

namespace Sys2Proof.Machine

/-- Four bytes never exceed a cell, so the sum of `20_memory.md` R64 is the cell's value without wrap-around. -/
theorem toNat_cellOfBytes (b0 b1 b2 b3 : Byte) :
    (cellOfBytes b0 b1 b2 b3).toNat = b0.toNat * 2 ^ 24 + b1.toNat * 2 ^ 16 + b2.toNat * 2 ^ 8 + b3.toNat := by
  rw [cellOfBytes, BitVec.toNat_ofNat]
  omega

/-- The bytes of a cell made of four bytes are those four. -/
theorem bytesOfCell_cellOfBytes (b0 b1 b2 b3 : Byte) : bytesOfCell (cellOfBytes b0 b1 b2 b3) = [b0, b1, b2, b3] := by
  have byte_eq (b : Byte) (k : Nat)
      (h : (cellOfBytes b0 b1 b2 b3).toNat / 2 ^ k % 2 ^ 8 = b.toNat) :
      (cellOfBytes b0 b1 b2 b3).extractLsb' k 8 = b := by
    apply BitVec.eq_of_toNat_eq
    rw [BitVec.extractLsb'_toNat, Nat.shiftRight_eq_div_pow, h]
  rw [bytesOfCell, byte_eq b0 24, byte_eq b1 16, byte_eq b2 8, byte_eq b3 0] <;>
    rw [toNat_cellOfBytes] <;> omega

/-- Writing the words read from a file gives back that file. -/
theorem imageBytes_of_imageWords {bs : List Byte} {ws : List Cell} (h : imageWords bs = some ws) :
    imageBytes ws = bs := by
  induction bs using imageWords.induct generalizing ws with
  | case1 =>
    obtain rfl := Option.some.inj h
    rfl
  | case2 b0 b1 b2 b3 bs ih =>
    obtain ⟨vs, read_rest, rfl⟩ := Option.map_eq_some_iff.1 h
    rw [imageBytes, List.flatMap_cons, bytesOfCell_cellOfBytes, ← imageBytes, ih read_rest]
    rfl
  | case3 bs not_nil not_word => simp [imageWords] at h

@[simp] theorem Memory.length_cells (m : Memory) (n a : Nat) : (m.cells n a).length = n := by
  simp [Memory.cells_eq]

/-- The cells read from address 0 on are memory's own, and 0 beyond them. -/
theorem Memory.getD_cells_zero (m : Memory) (n i : Nat) :
    (m.cells n 0).getD i 0#32 = if i < n then m.read i else 0#32 := by
  by_cases hi : i < n
  · simp [Memory.cells_eq, hi]
  · simp [hi]

/-- Words that agree up to trailing zeros place the same memory when written into the empty one. -/
theorem Memory.writeAll_zero_nil_congr {vs ws : List Cell} (h : ∀ i, vs.getD i 0#32 = ws.getD i 0#32) :
    Memory.writeAll [] 0 vs = Memory.writeAll [] 0 ws :=
  Memory.ext (Memory.wf_writeAll Memory.wf_nil 0 vs) (Memory.wf_writeAll Memory.wf_nil 0 ws) fun i => by
    rw [Memory.read_writeAll_zero_nil, Memory.read_writeAll_zero_nil, h]

/-- The cells read back after a write of words into empty memory are the words, up to trailing zeros, if every word not
read back is 0. -/
theorem Memory.getD_cells_writeAll_zero_nil {ws : List Cell} {count : Nat}
    (covers : ∀ i, count ≤ i → ws.getD i 0#32 = 0#32) (i : Nat) :
    ((Memory.writeAll [] 0 ws).cells count 0).getD i 0#32 = ws.getD i 0#32 := by
  rw [Memory.getD_cells_zero, Memory.read_writeAll_zero_nil]
  split
  case isTrue => rfl
  case isFalse beyond => exact (covers i (not_lt.1 beyond)).symm

/-- As many cells read back as words were written are the words. -/
theorem Memory.cells_writeAll_zero_nil (ws : List Cell) : (Memory.writeAll [] 0 ws).cells ws.length 0 = ws := by
  refine List.ext_getElem (by simp) fun i hi hi' => ?_
  simp [Memory.cells_eq, Memory.read_writeAll_zero_nil, hi']

/-- A save of no more cells than memory has writes as many as asked for. -/
theorem State.saveImage_of_le {s : State} {count : Nat} (h : count ≤ s.params.memCells) :
    s.saveImage count = imageBytes (s.mem.cells count 0) := by
  rw [State.saveImage, Nat.min_eq_left h]

/-- Settles O58: the two byte orders are inverse, and a save that covers every nonzero word differs from the image in
trailing zeros at most, which memory does not list. -/
theorem imageRoundTrips : Obligations.ImageRoundTrips := by
  refine ⟨fun b0 b1 b2 b3 => ⟨cellOfBytes b0 b1 b2 b3, rfl, toNat_cellOfBytes b0 b1 b2 b3⟩, fun v => ?_,
    imageWords_imageBytes, fun _ _ => imageBytes_of_imageWords, ?_⟩
  · refine ⟨v.extractLsb' 24 8, v.extractLsb' 16 8, v.extractLsb' 8 8, v.extractLsb' 0 8, rfl, ?_⟩
    rw [← toNat_cellOfBytes, cellOfBytes_extractLsb']
  · intro p ws count fits boots count_fits covers
    have saved_agree := Memory.getD_cells_writeAll_zero_nil covers
    refine ⟨{ State.resetOf p with mem := Memory.writeAll [] 0 ws }, ?_, ?_, ?_⟩
    · rw [State.loadImage_resetOf_imageBytes, State.loadWords_resetOf fits boots]
    · rw [State.saveImage_of_le count_fits, State.loadImage_resetOf_imageBytes,
        State.loadWords_resetOf (by simpa using count_fits) (by rwa [saved_agree]),
        Memory.writeAll_zero_nil_congr saved_agree]
    · rintro rfl
      rw [State.saveImage_of_le count_fits, Memory.cells_writeAll_zero_nil]

end Sys2Proof.Machine
end

section
/-! Proofs for `30_encoding.md` R76: below 31 a cell selects the entry of the machine's own opcode map, which is never a
call, and every other cell selects the call. -/

namespace Sys2Proof.Machine

/-- A primitive's number selects the valid map's entry at that place. -/
theorem State.getElem?_opcodeMap_of_primitive {s : State} {op : Cell} (hmap : validOpcodeMap s.params.opcodeMap = true)
    (hop : IsPrimitiveNumber op) : s.params.opcodeMap[op.toNat]? = some (s.dispatch op) := by
  have in_map : op.toNat < s.params.opcodeMap.length := by
    rw [validOpcodeMap_length hmap]
    exact (isPrimitiveNumber_iff op).1 hop
  rw [State.dispatch, decodeWith_of_primitive _ hop, List.getD_eq_getElem _ _ in_map, List.getElem?_eq_getElem in_map]

/-- A primitive's number never selects a call under a valid map. -/
theorem State.dispatch_ne_call_of_primitive {s : State} {op : Cell} (hmap : validOpcodeMap s.params.opcodeMap = true)
    (hop : IsPrimitiveNumber op) (v : Cell) : s.dispatch op ≠ .call v :=
  (mem_validOpcodeMap hmap _).1 (List.mem_of_getElem? (State.getElem?_opcodeMap_of_primitive hmap hop)) v

/-- A cell that is no primitive's number selects the call with that target, under every map. -/
theorem State.dispatch_of_not_primitive (s : State) {op : Cell} (hop : ¬ IsPrimitiveNumber op) :
    s.dispatch op = .call op :=
  decodeWith_of_not s.params.opcodeMap hop

/-- Settles O3: a valid map has 31 places and no call among them. -/
theorem everyCellDispatches : Obligations.EveryCellDispatches := by
  refine fun s op hmap => ⟨fun hop => ⟨?_, ?_⟩, fun outside => ?_⟩
  · exact State.getElem?_opcodeMap_of_primitive hmap hop
  · exact State.dispatch_ne_call_of_primitive hmap hop
  · exact State.dispatch_of_not_primitive s (by omega)

end Sys2Proof.Machine
end

section
/-! Proofs for `30_encoding.md` R75: what a step of a machine that is not stopped does, by where `ip` points. -/

namespace Sys2Proof.Machine

/-- A running machine whose `ip` is below N, signed, is not stopped (decision D21). -/
theorem State.not_stopped_of_running {s : State} (running : s.status = .running)
    (below : s.ip.toInt < s.params.memCells) : ¬ s.Stopped :=
  not_or.2 ⟨not_not.2 running, not_le.2 below⟩

/-- A machine that is not stopped runs the instruction it fetches, then the closing increment. -/
theorem step_of_inBounds {s : State} (active : ¬ s.Stopped) (fetched : s.InBounds s.ip) :
    step s = closeStep (exec (s.dispatch (s.mem.read s.ip.toNat)) s) := by
  rw [step, if_neg active, fetchOp, memRead_of_inBounds fetched]

/-- A machine that is not stopped faults on a fetch outside memory. -/
theorem step_of_not_inBounds {s : State} (active : ¬ s.Stopped) (outside : ¬ s.InBounds s.ip) :
    step s = .fault .outOfBounds := by
  rw [step, if_neg active, fetchOp, memRead_of_not outside]

/-- Settles O6: below N the sign of `ip` alone decides whether the fetch is inside memory. -/
theorem stepRunsFetchedInstruction : Obligations.StepRunsFetchedInstruction := by
  intro s running below
  have active := State.not_stopped_of_running running below
  refine ⟨fun nonneg => ?_, fun negative => ?_⟩
  · rw [step_of_inBounds active ⟨nonneg, below⟩]
    cases exec (s.dispatch (s.mem.read s.ip.toNat)) s <;> rfl
  · exact step_of_not_inBounds active fun fetched => absurd fetched.1 (not_le.2 negative)

end Sys2Proof.Machine
end

section
/-! The pseudocode of the stack instructions, and of the two transfers that take what PUSH leaves on the address stack,
in the operations `Sys2Proof/Laws/Ops.lean` has the equations of. -/

namespace Sys2Proof.Machine

variable (s : State)

theorem exec_nop : exec .nop s = .next s := rfl

theorem exec_lit :
    exec .lit s = memRead s (s.ip + 1#32) fun x => dPush (s.setIp (s.ip + 1#32)) x .next := rfl

theorem exec_dup : exec .dup s = dPeek s fun b => dPush s b .next := rfl

theorem exec_drop : exec .drop s = dPop s fun _ t => .next t := rfl

theorem exec_swap :
    exec .swap s = dPop s fun b t => dPop t fun a t => dPush t b fun t => dPush t a .next := rfl

theorem exec_push : exec .push s = dPop s fun b t => aPush t b .next := rfl

theorem exec_pop : exec .pop s = aPop s fun b t => dPush t b .next := rfl

theorem exec_ret : exec .ret s = aPop s fun r t => nopSkip (t.setIp r) .next := rfl

theorem exec_zeroExit :
    exec .zeroExit s = dPeek s fun b =>
      if isZero b then dPop s fun _ t => aPop t fun r t => .next (t.setIp r) else .next s := rfl

end Sys2Proof.Machine
end

section
/-! The trailing-NOP skip of `41_control.md` R120 one check at a time, and where both checks together put `ip` when they
stay inside memory. -/

namespace Sys2Proof.Machine

variable {s : State} {k : State → Out}

/-- A check that finds a zero cell moves `ip` onto it. -/
theorem skipOnce_of_zero (inside : s.InBounds (s.ip + 1#32)) (zero : s.mem.read (s.ip + 1#32).toNat = 0#32) :
    skipOnce s k = k (s.setIp (s.ip + 1#32)) := by
  rw [skipOnce, memRead_of_inBounds inside, if_pos zero]

/-- A check that finds any other cell changes nothing. -/
theorem skipOnce_of_ne_zero (inside : s.InBounds (s.ip + 1#32)) (nonzero : s.mem.read (s.ip + 1#32).toNat ≠ 0#32) :
    skipOnce s k = k s := by
  rw [skipOnce, memRead_of_inBounds inside, if_neg nonzero]

/-- The skip leaves `ip` one cell short of where `landing` says the next fetch happens. -/
theorem nopSkip_of_landing {a : Cell} (lands : landing s (s.ip + 1#32) = some a) :
    nopSkip s k = k (s.setIp (a - 1#32)) := by
  rw [landing] at lands
  split_ifs at lands with first nonzero second nonzero' <;> obtain rfl := Option.some.inj lands
  · rw [nopSkip, skipOnce_of_ne_zero first nonzero, skipOnce_of_ne_zero first nonzero, BitVec.add_sub_cancel]
    rfl
  · rw [nopSkip, skipOnce_of_zero first (not_not.1 nonzero),
      skipOnce_of_ne_zero (s := s.setIp (s.ip + 1#32)) second nonzero', BitVec.add_sub_cancel]
  · have two_steps : s.ip + 1#32 + 2#32 - 1#32 = s.ip + 1#32 + 1#32 := by bv_omega
    rw [nopSkip, skipOnce_of_zero first (not_not.1 nonzero),
      skipOnce_of_zero (s := s.setIp (s.ip + 1#32)) second (not_not.1 nonzero'), two_steps]
    rfl

end Sys2Proof.Machine
end

section
/-! Proofs for `40_stack.md` R100 to R104: NOP, LIT and the instructions that stay on the data stack. -/

namespace Sys2Proof.Machine

/-- Under a valid opcode map the cell 0 is NOP. -/
theorem State.dispatch_zero {s : State} (hmap : validOpcodeMap s.params.opcodeMap = true) : s.dispatch 0#32 = .nop := by
  have selected := State.getElem?_opcodeMap_of_primitive hmap (op := 0#32) (by decide)
  exact Option.some.inj (selected.symm.trans (validOpcodeMap_head hmap))

/-- Settles O18: a valid map has NOP at place 0, and a cell that nothing has written reads 0. -/
theorem nopHasNoEffect : Obligations.NopHasNoEffect := by
  refine ⟨fun _ => State.dispatch_zero, exec_nop, fun p _ hmap => ?_⟩
  exact State.dispatch_zero (s := State.resetOf p) hmap

/-- Settles O19: the read of the operand cell comes before the push. -/
theorem litPushesOperandCell : Obligations.LitPushesOperandCell := by
  refine fun s => ⟨fun inside room => ?_, fun outside _ => ?_, fun inside full => ?_⟩
  · rw [exec_lit, memRead_of_inBounds inside, dPush_of_lt (by exact room)]
    rfl
  · rw [exec_lit, memRead_of_not outside]
  · rw [exec_lit, memRead_of_inBounds inside, dPush_of_full (by exact full)]

/-- Settles O20: an empty data stack fails the peek, a full one the push. -/
theorem dupCopiesTop : Obligations.DupCopiesTop := by
  refine fun s => ⟨fun b rest top room => ?_, fun empty => ?_, fun full => ?_⟩
  · rw [exec_dup, dPeek_of_cons top, dPush_of_lt room, top]
    rfl
  · rw [exec_dup, dPeek_of_nil empty]
  · rw [exec_dup]
    cases top : s.dstack with
    | nil => rw [dPeek_of_nil top]
    | cons b rest => rw [dPeek_of_cons top, dPush_of_full full]

/-- Settles O21: DROP is one pop. -/
theorem dropRemovesTop : Obligations.DropRemovesTop := by
  refine fun s => ⟨fun b rest top => ?_, fun empty => ?_⟩
  · rw [exec_drop, dPop_of_cons top]
    rfl
  · rw [exec_drop, dPop_of_nil empty]

/-- Settles O22: the two pops make the room the two pushes need. -/
theorem swapExchangesTopTwo : Obligations.SwapExchangesTopTwo := by
  refine fun s => ⟨fun a b rest top fits => ?_, fun few => ?_⟩
  · have room : rest.length + 1 < s.params.dsCap := by simpa [top] using fits
    rw [exec_swap, dPop_of_cons top, dPop_of_cons rfl, dPush_of_lt (by exact Nat.lt_of_succ_lt room),
      dPush_of_lt (by exact room)]
    rfl
  · rw [exec_swap]
    match top : s.dstack with
    | [] => rw [dPop_of_nil top]
    | [b] => rw [dPop_of_cons top, dPop_of_nil rfl]
    | b :: a :: rest => simp [top] at few

end Sys2Proof.Machine
end

section
/-! Proofs for `40_stack.md` R105 and R106: the moves between the two stacks, and what RETURN, ZERO_EXIT and POP make of
a cell that PUSH has just moved. -/

namespace Sys2Proof.Machine

variable {s : State} {b : Cell} {rest : List Cell}

/-- The state after a PUSH of the top cell. -/
theorem exec_push_of_cons (top : s.dstack = b :: rest) (room : s.astack.length < s.params.asCap) :
    exec .push s = .next ((s.setData rest).setAddr (b :: s.astack)) := by
  rw [exec_push, dPop_of_cons top, aPush_of_lt (by exact room), State.setData_astack]

/-- The state after a POP of the top address-stack cell. -/
theorem exec_pop_of_cons (top : s.astack = b :: rest) (room : s.dstack.length < s.params.dsCap) :
    exec .pop s = .next ((s.setAddr rest).setData (b :: s.dstack)) := by
  rw [exec_pop, aPop_of_cons top, dPush_of_lt (by exact room), State.setAddr_dstack]

/-- A RETURN resumes after the cell on top of the address stack, past the skip. -/
theorem exec_ret_of_landing {a : Cell} (top : s.astack = b :: rest) (lands : landing s (b + 1#32) = some a) :
    exec .ret s = .next ((s.setAddr rest).setIp (a - 1#32)) := by
  rw [exec_ret, aPop_of_cons top, nopSkip_of_landing (by exact lands)]
  rfl

/-- A ZERO_EXIT that meets a zero takes it and puts the top address-stack cell into `ip`. -/
theorem exec_zeroExit_of_zero {l : List Cell} (zero : s.dstack = 0#32 :: l) (top : s.astack = b :: rest) :
    exec .zeroExit s = .next (((s.setData l).setAddr rest).setIp b) := by
  rw [exec_zeroExit, dPeek_of_cons zero, if_pos (by decide), dPop_of_cons zero, aPop_of_cons (by exact top)]

/-- Settles O23: the pushed cell is the top of the address stack for whatever instruction comes next. -/
theorem pushMovesToAddressStack : Obligations.PushMovesToAddressStack := by
  refine fun s => ⟨fun b rest top room => exec_push_of_cons top room, fun empty => ?_, fun full => ?_,
    fun b rest a top room lands => ⟨_, exec_push_of_cons top room, ?_⟩,
    fun b rest top room => ⟨_, exec_push_of_cons top room, ?_⟩⟩
  · rw [exec_push, dPop_of_nil empty]
  · rw [exec_push]
    cases top : s.dstack with
    | nil => rw [dPop_of_nil top]
    | cons b rest => rw [dPop_of_cons top, aPush_of_full (by exact full)]
  · exact exec_ret_of_landing rfl lands
  · exact exec_zeroExit_of_zero (b := b) (rest := s.astack) (l := rest) rfl rfl

/-- Settles O24: PUSH makes the room on the data stack that the POP after it needs. -/
theorem popMovesToDataStack : Obligations.PopMovesToDataStack := by
  refine fun s => ⟨fun b rest top room => exec_pop_of_cons top room, fun empty => ?_, fun full => ?_,
    fun nonempty fits room => ?_⟩
  · rw [exec_pop, aPop_of_nil empty]
  · rw [exec_pop]
    cases top : s.astack with
    | nil => rw [aPop_of_nil top]
    | cons b rest => rw [aPop_of_cons top, dPush_of_full (by exact full)]
  · obtain ⟨b, rest, top⟩ := List.exists_cons_of_ne_nil nonempty
    have room_again : rest.length < s.params.dsCap := by simpa [top] using fits
    have restored : (s.setAddr s.astack).setData (b :: rest) = s := by
      rw [← top]
      rfl
    refine ⟨_, exec_push_of_cons top room, ?_⟩
    rw [exec_pop_of_cons rfl room_again]
    exact congrArg _ restored

end Sys2Proof.Machine
end

section
/-! The rest of what control transfer is made of (`41_control.md`): where the trailing-NOP skip leaves memory, a skip from
a given target, and the two ends of a conditional jump. -/

namespace Sys2Proof.Machine

variable {s : State} {k : State → Out} {t : Cell}

/-- A check outside memory faults. -/
theorem skipOnce_of_not_inBounds (outside : ¬ s.InBounds (s.ip + 1#32)) : skipOnce s k = .fault .outOfBounds :=
  memRead_of_not outside

/-- The skip faults where `landing` has no answer: the first check is outside memory, or the second, after a zero. -/
theorem nopSkip_of_landing_none (leaves : landing s (s.ip + 1#32) = none) : nopSkip s k = .fault .outOfBounds := by
  rw [landing] at leaves
  split_ifs at leaves with first nonzero second nonzero'
  · rw [nopSkip, skipOnce_of_zero first (not_not.1 nonzero), skipOnce_of_not_inBounds (by exact second)]
  · rw [nopSkip, skipOnce_of_not_inBounds first]

/-- A transfer to `t` with the skip leaves `ip` one cell short of where `landing` says. -/
theorem nopSkip_setIp_pred_of_landing {a : Cell} (lands : landing s t = some a) :
    nopSkip (s.setIp (t - 1#32)) k = k (s.setIp (a - 1#32)) :=
  nopSkip_of_landing (by simpa [BitVec.sub_add_cancel] using lands)

/-- A transfer to `t` with the skip faults where the skip leaves memory. -/
theorem nopSkip_setIp_pred_of_landing_none (leaves : landing s t = none) :
    nopSkip (s.setIp (t - 1#32)) k = .fault .outOfBounds :=
  nopSkip_of_landing_none (by simpa [BitVec.sub_add_cancel] using leaves)

/-- A taken branch with its operand cell in memory goes to the cell's value. -/
theorem takeBranch_of_inBounds (inside : s.InBounds (s.ip + 1#32)) :
    takeBranch s = .next (s.setIp (s.mem.read (s.ip + 1#32).toNat - 1#32)) := by
  rw [takeBranch, readOperand, memRead_of_inBounds inside]

/-- A taken branch with its operand cell outside memory faults. -/
theorem takeBranch_of_not_inBounds (outside : ¬ s.InBounds (s.ip + 1#32)) : takeBranch s = .fault .outOfBounds := by
  rw [takeBranch, readOperand, memRead_of_not outside]

/-- Two pops fault when fewer than two cells are there. -/
theorem dPop_dPop_of_length_lt {f : Cell → Cell → State → Out} (few : s.dstack.length < 2) :
    (dPop s fun b t => dPop t fun a t => f b a t) = .fault .stackFault := by
  match top : s.dstack with
  | [] => rw [dPop_of_nil top]
  | [b] => rw [dPop_of_cons top, dPop_of_nil rfl]
  | b :: a :: rest => simp [top] at few

section
variable {cond : Cell → Cell → Bool} {a b : Cell} {rest : List Cell}

/-- A conditional jump whose comparison holds takes the branch, both cells consumed. -/
theorem condJump_of_true (top : s.dstack = b :: a :: rest) (holds : cond a b = true) :
    condJump cond s = takeBranch (s.setData rest) := by
  rw [condJump, dPop_of_cons top, dPop_of_cons rfl, if_pos holds]
  rfl

/-- A conditional jump whose comparison fails passes its operand cell unread, both cells consumed (decision D13). -/
theorem condJump_of_false (top : s.dstack = b :: a :: rest) (fails : ¬ cond a b = true) :
    condJump cond s = .next ((s.setData rest).setIp (s.ip + 1#32)) := by
  rw [condJump, dPop_of_cons top, dPop_of_cons rfl, if_neg fails]
  rfl

end

end Sys2Proof.Machine
end

section
/-! Proofs for `41_control.md` R122, R123, R128 and R129: JUMP, RETURN, ZERO_EXIT and the implicit call. -/

namespace Sys2Proof.Machine

theorem exec_jump (s : State) :
    exec .jump s = memRead s (s.ip + 1#32) fun t => nopSkip (s.setIp (t - 1#32)) .next := rfl

theorem exec_call (v : Cell) (s : State) :
    exec (.call v) s = aPush s s.ip fun t => nopSkip (t.setIp (v - 1#32)) .next := rfl

/-- The state after an implicit call that finds room and a landing place. -/
theorem exec_call_of_landing {s : State} {v a : Cell} (room : s.astack.length < s.params.asCap)
    (lands : landing s v = some a) :
    exec (.call v) s = .next ((s.setAddr (s.ip :: s.astack)).setIp (a - 1#32)) := by
  rw [exec_call, aPush_of_lt room, nopSkip_setIp_pred_of_landing (by exact lands)]

/-- Settles O27: the operand cell is read first, then its value is the target the skip starts from. -/
theorem jumpLandsOnOperand : Obligations.JumpLandsOnOperand := by
  refine fun s => ⟨fun a inside lands => ?_, fun inside leaves => ?_, fun outside => ?_⟩
  · rw [exec_jump, memRead_of_inBounds inside, nopSkip_setIp_pred_of_landing lands]
    rfl
  · rw [exec_jump, memRead_of_inBounds inside, nopSkip_setIp_pred_of_landing_none leaves]
  · rw [exec_jump, memRead_of_not outside]

/-- Settles O28: the popped address is the caller's, so the skip starts from the cell after it. -/
theorem returnResumesAfterCaller : Obligations.ReturnResumesAfterCaller := by
  refine fun s => ⟨fun r rest a top lands => exec_ret_of_landing top lands, fun r rest top leaves => ?_,
    fun empty => ?_⟩
  · rw [exec_ret, aPop_of_cons top, nopSkip_of_landing_none (by exact leaves)]
  · rw [exec_ret, aPop_of_nil empty]

/-- Settles O31: the peek decides, and only a zero is popped, before the address. -/
theorem zeroExitReturnsEarly : Obligations.ZeroExitReturnsEarly := by
  refine fun s => ⟨fun b rest top nonzero => ?_, fun rest r callers zero top => exec_zeroExit_of_zero zero top,
    fun rest zero empty => ?_, fun empty => ?_⟩
  · rw [exec_zeroExit, dPeek_of_cons top, if_neg (by simpa [isZero] using nonzero)]
  · rw [exec_zeroExit, dPeek_of_cons zero, if_pos (by decide), dPop_of_cons zero, aPop_of_nil (by exact empty)]
  · rw [exec_zeroExit, dPeek_of_nil empty]

/-- Settles O32: the push comes before the skip, and what it leaves on top is where the RETURN resumes after. -/
theorem callPushesItsOwnAddress : Obligations.CallPushesItsOwnAddress := by
  refine fun s v => ⟨fun a room lands => exec_call_of_landing room lands, fun room leaves => ?_, fun full _ => ?_,
    fun a c room lands resumes => ⟨_, exec_call_of_landing room lands, ?_⟩, fun outside => ?_⟩
  · rw [exec_call, aPush_of_lt room, nopSkip_setIp_pred_of_landing_none (by exact leaves)]
  · rw [exec_call, aPush_of_full full]
  · exact exec_ret_of_landing (b := s.ip) (rest := s.astack) rfl resumes
  · exact State.dispatch_of_not_primitive s (by omega)

end Sys2Proof.Machine
end

section
/-! Proofs for `41_control.md` R124 to R127: each conditional jump is the shape of R130 with its own comparison. -/

namespace Sys2Proof.Machine

theorem exec_ltJump (s : State) : exec .ltJump s = condJump condLt s := rfl

theorem exec_gtJump (s : State) : exec .gtJump s = condJump condGt s := rfl

theorem exec_neJump (s : State) : exec .neJump s = condJump condNe s := rfl

theorem exec_eqJump (s : State) : exec .eqJump s = condJump condEq s := rfl

theorem condLt_iff (a b : Cell) : condLt a b = true ↔ a.toInt < b.toInt := decide_eq_true_iff

theorem condGt_iff (a b : Cell) : condGt a b = true ↔ a.toInt > b.toInt := decide_eq_true_iff

theorem condNe_iff (a b : Cell) : condNe a b = true ↔ a ≠ b := decide_eq_true_iff

theorem condEq_iff (a b : Cell) : condEq a b = true ↔ a = b := decide_eq_true_iff

/-- An instruction that is R130's shape with a test for `taken` branches exactly when `taken` says. -/
theorem branchesWhen_of_condJump {i : Instr} {cond : Cell → Cell → Bool} {taken : Cell → Cell → Prop}
    (shape : ∀ s, exec i s = condJump cond s) (test : ∀ a b, cond a b = true ↔ taken a b) : BranchesWhen i taken := by
  refine ⟨fun s a b rest top => ⟨fun inside holds => ?_, fun _ fails => ?_, fun outside holds => ?_⟩, fun s few => ?_⟩
  · rw [shape, condJump_of_true top ((test a b).2 holds), takeBranch_of_inBounds (by exact inside)]
    rfl
  · rw [shape, condJump_of_false top (mt (test a b).1 fails)]
    rfl
  · rw [shape, condJump_of_true top ((test a b).2 holds), takeBranch_of_not_inBounds (by exact outside)]
  · rw [shape, condJump, dPop_dPop_of_length_lt few]

/-- Settles O29: the comparisons are the four of R124 to R127, on the second-popped cell first. -/
theorem conditionalJumpsCompareSigned : Obligations.ConditionalJumpsCompareSigned :=
  ⟨branchesWhen_of_condJump exec_ltJump condLt_iff, branchesWhen_of_condJump exec_gtJump condGt_iff,
    branchesWhen_of_condJump exec_neJump condNe_iff, branchesWhen_of_condJump exec_eqJump condEq_iff⟩

end Sys2Proof.Machine
end

section
/-! Proofs for `42_memory_ops.md` R150 and R151: FETCH reads and STORE writes the cell whose address is popped first. -/

namespace Sys2Proof.Machine

theorem exec_fetch (s : State) :
    exec .fetch s = dPop s fun addr t => memRead t addr fun v => dPush t v .next := rfl

theorem exec_store (s : State) :
    exec .store s = dPop s fun addr t => dPop t fun value t => memWrite t addr value .next := rfl

/-- An address that fails either half of the signed bounds check of `20_memory.md` R53 is outside memory. -/
theorem State.not_inBounds_of_outside {s : State} {a : Cell}
    (outside : a.toInt < 0 ∨ (s.params.memCells : Int) ≤ a.toInt) : ¬ s.InBounds a := by
  rintro ⟨nonneg, below⟩
  omega

/-- The state after a STORE to an address inside memory. -/
theorem exec_store_of_inBounds {s : State} {addr value : Cell} {rest : List Cell}
    (top : s.dstack = addr :: value :: rest) (inside : s.InBounds addr) :
    exec .store s = .next ((s.setData rest).setMem (s.mem.write addr.toNat value)) := by
  rw [exec_store, dPop_of_cons top, dPop_of_cons rfl, memWrite_of_inBounds (by exact inside)]
  rfl

/-- Settles O34: the pop of the address makes the room the push of the cell needs. -/
theorem fetchReplacesAddressByCell : Obligations.FetchReplacesAddressByCell := by
  refine fun s => ⟨fun addr rest top fits nonneg below => ?_, fun addr rest top outside => ?_, fun empty => ?_⟩
  · have inside : s.InBounds addr := ⟨nonneg, below⟩
    have room : rest.length < s.params.dsCap := by simpa [top] using fits
    rw [exec_fetch, dPop_of_cons top, memRead_of_inBounds (by exact inside), dPush_of_lt (by exact room)]
    rfl
  · rw [exec_fetch, dPop_of_cons top, memRead_of_not (by exact State.not_inBounds_of_outside outside)]
  · rw [exec_fetch, dPop_of_nil empty]

/-- Settles O35: the new memory is one write of the popped value to a canonical memory. -/
theorem storeWritesOneCell : Obligations.StoreWritesOneCell := by
  refine fun s => ⟨fun addr value rest top canonical nonneg below => ?_, fun addr value rest top outside => ?_,
    fun few => ?_⟩
  · refine ⟨s.mem.write addr.toNat value, exec_store_of_inBounds top ⟨nonneg, below⟩,
      Memory.wf_write canonical _ _, ?_, fun a other => ?_⟩
    · rw [Memory.read_write canonical, if_pos rfl]
    · rw [Memory.read_write canonical, if_neg other]
  · rw [exec_store, dPop_of_cons top, dPop_of_cons rfl,
      memWrite_of_not (by exact State.not_inBounds_of_outside outside)]
  · rw [exec_store, dPop_dPop_of_length_lt few]

end Sys2Proof.Machine
end

section
/-! Proofs for `43_alu.md` R165 to R167: AND, OR and XOR are the two-operand shape of R160 with one bitwise operation
each. -/

namespace Sys2Proof.Machine

theorem exec_and (s : State) : exec .and s = binary (fun a b => a &&& b) s := rfl

theorem exec_or (s : State) : exec .or s = binary (fun a b => a ||| b) s := rfl

theorem exec_xor (s : State) : exec .xor s = binary (fun a b => a ^^^ b) s := rfl

/-- The two pops make the room the one push needs. -/
theorem binary_of_cons_cons {f : Cell → Cell → Cell} {s : State} {a b : Cell} {rest : List Cell}
    (top : s.dstack = b :: a :: rest) (fits : s.dstack.length ≤ s.params.dsCap) :
    binary f s = .next (s.setData (f a b :: rest)) := by
  have room : rest.length < s.params.dsCap := by
    rw [top, List.length_cons, List.length_cons] at fits
    omega
  rw [binary, dPop_of_cons top, dPop_of_cons rfl, dPush_of_lt (by exact room)]
  rfl

/-- An instruction of the two-operand shape leaves the one cell `f a b`, so it meets every relation `f` meets. -/
theorem twoToOne_of_binary {i : Instr} {f : Cell → Cell → Cell} {rel : Cell → Cell → Cell → Prop}
    (shape : ∀ s, exec i s = binary f s) (meets : ∀ a b, rel a b (f a b)) : TwoToOne i rel := by
  refine ⟨fun s a b rest top fits => ⟨f a b, meets a b, ?_⟩, fun s few => ?_⟩
  · rw [shape, binary_of_cons_cons top fits]
    rfl
  · rw [shape, binary, dPop_dPop_of_length_lt few]

/-- Settles O41: each instruction is the two-operand shape with the bitwise operation its bit law is about. -/
theorem bitwiseInstructions : Obligations.BitwiseInstructions :=
  ⟨twoToOne_of_binary exec_and fun _ _ _ => BitVec.getLsbD_and,
    twoToOne_of_binary exec_or fun _ _ _ => BitVec.getLsbD_or,
    twoToOne_of_binary exec_xor fun _ _ _ => BitVec.getLsbD_xor⟩

end Sys2Proof.Machine
end

section
/-! Proof for `44_io.md` R194: a pass that finds port 0 nonzero. -/

namespace Sys2Proof.Machine

theorem exec_wait (s : State) : exec .wait s = portPass s := rfl

/-- Port 0 is tested before any request port (`44_io.md` R193 step 1). -/
theorem portPass_of_busy {s : State} (busy : s.port 0 ≠ 0#32) : portPass s = .next s :=
  if_pos busy

/-- Settles O46: WAIT is one pass, and a pass that finds port 0 nonzero ends at its first test. -/
theorem busyPassDoesNothing : Obligations.BusyPassDoesNothing := by
  intro s busy
  rw [exec_wait, portPass_of_busy busy]

end Sys2Proof.Machine
end

section
/-! Proofs for `30_encoding.md` sections 1 and 3 under any valid opcode map: the dispatcher and the encoder are inverse,
for one cell, for one instruction with its operand, and for a sequence. -/

namespace Sys2Proof

variable {map : List Instr}

/-- A well-formed instruction's opcode cell dispatches to the instruction. -/
theorem decodeWith_encodeWith (hmap : validOpcodeMap map = true) {i : Instr} (hi : i.wf = true) :
    decodeWith map (encodeWith map i) = i := by
  by_cases hcall : ∃ v, i = .call v
  · obtain ⟨v, rfl⟩ := hcall
    exact decodeWith_of_not map ((wf_call_iff v).1 hi)
  · have no_call : ∀ v, i ≠ .call v := fun v h => hcall ⟨v, h⟩
    have place_lt : map.idxOf i < map.length := List.idxOf_lt_length_iff.2 ((mem_validOpcodeMap hmap i).2 no_call)
    have place_lt_31 : map.idxOf i < 31 := validOpcodeMap_length hmap ▸ place_lt
    have cell_toNat : (BitVec.ofNat 32 (map.idxOf i)).toNat = map.idxOf i := by
      rw [BitVec.toNat_ofNat]; omega
    have primitive : IsPrimitiveNumber (BitVec.ofNat 32 (map.idxOf i)) := by
      rwa [isPrimitiveNumber_iff, cell_toNat]
    rw [encodeWith_of_ne_call map i no_call, decodeWith_of_primitive map primitive, cell_toNat,
      List.getD_eq_getElem _ _ place_lt, List.getElem_idxOf]

/-- The instruction a cell selects is well formed, and the cell is its opcode cell. -/
theorem wf_and_encodeWith_decodeWith (hmap : validOpcodeMap map = true) (op : Cell) :
    (decodeWith map op).wf = true ∧ encodeWith map (decodeWith map op) = op := by
  by_cases hop : IsPrimitiveNumber op
  · have place_lt : op.toNat < map.length := by
      rw [validOpcodeMap_length hmap]; exact (isPrimitiveNumber_iff op).1 hop
    have no_call := (mem_validOpcodeMap hmap _).1 (List.getElem_mem place_lt)
    rw [decodeWith_of_primitive map hop, List.getD_eq_getElem _ _ place_lt]
    refine ⟨?_, ?_⟩
    · cases hi : map[op.toNat]
      case call v => exact absurd hi (no_call v)
      all_goals rfl
    · rw [encodeWith_of_ne_call map _ no_call, (nodup_validOpcodeMap hmap).idxOf_getElem, BitVec.ofNat_toNat,
        BitVec.setWidth_eq]
  · rw [decodeWith_of_not map hop]
    exact ⟨(wf_call_iff op).2 hop, rfl⟩

/-- A well-formed instruction is read back from its cells, whatever cells follow. -/
theorem decode_encode_append (hmap : validOpcodeMap map = true) {c : Code} (hc : c.wf = true) (rest : List Cell) :
    decode (c.encode map ++ rest) map = .ok (c, rest) := by
  obtain ⟨i, operand⟩ := c
  simp only [Code.wf, Bool.and_eq_true, beq_iff_eq] at hc
  obtain ⟨hi, owns⟩ := hc
  cases operand with
  | none => simp [decode, Code.encode, decodeWith_encodeWith hmap hi, ← owns]
  | some x => simp [decode, Code.encode, decodeWith_encodeWith hmap hi, ← owns]

/-- Settles O5: dispatch is the decoder under the machine's own map. -/
theorem anyOpcodeMapRoundTrips : Obligations.AnyOpcodeMapRoundTrips :=
  fun _ hmap _ hi => decodeWith_encodeWith hmap hi

/-- Settles O2: the opcode cell fixes the instruction and with it whether the next cell is its operand. -/
theorem decodedCellsReencode : Obligations.DecodedCellsReencode := by
  intro map hmap ws rest c decoded
  match ws with
  | [] => simp [decode] at decoded
  | op :: ws =>
    obtain ⟨hwf, hcell⟩ := wf_and_encodeWith_decodeWith hmap op
    by_cases owns : (decodeWith map op).hasOperand = true
    · match ws with
      | [] => simp [decode, owns] at decoded
      | x :: ws =>
        obtain ⟨rfl, rfl⟩ : ⟨decodeWith map op, some x⟩ = c ∧ ws = rest := by simpa [decode, owns] using decoded
        simp [Code.wf, Code.encode, hwf, hcell, owns]
    · obtain ⟨rfl, rfl⟩ : ⟨decodeWith map op, none⟩ = c ∧ ws = rest := by simpa [decode, owns] using decoded
      simp [Code.wf, Code.encode, hwf, hcell, owns]

/-- Settles O1, by induction on the sequence: one decoding step takes off exactly the first instruction's cells. -/
theorem encodedSequenceDecodes : Obligations.EncodedSequenceDecodes := by
  intro map hmap cs hcs
  induction cs with
  | nil => rfl
  | cons c cs ih =>
    obtain ⟨hc, hcs⟩ := List.forall_mem_cons.1 hcs
    have first := decode_encode_append hmap hc (encodeAll cs map)
    have cells_cons : encodeAll (c :: cs) map = encodeWith map c.instr :: (c.operand.toList ++ encodeAll cs map) := rfl
    rw [cells_cons, List.length_cons, decodeAll]
    rw [Code.encode, List.cons_append] at first
    rw [first]
    simp only [ih hcs, Except.map]

/-- Settles O4: each cell is dispatched by evaluating the spec's table. -/
theorem specOpcodeCellsDecode : Obligations.SpecOpcodeCellsDecode := by
  refine ⟨?_, ?_, ?_, ?_, ?_, ?_, ?_, ?_, ?_⟩ <;> decide

end Sys2Proof
end

section
/-! Proofs for what stops a machine and what a reset leaves: `30_encoding.md` R86, `60_exceptions.md` R238,
`10_state.md` R44. -/

namespace Sys2Proof.Machine

/-- A stopped machine takes no step (log entry 15). -/
theorem step_of_stopped {s : State} (stopped : s.Stopped) : step s = .next s := if_pos stopped

/-- A machine whose status is not `running` takes no step when the host runs it. -/
theorem State.runStep_of_not_running {s : State} (h : s.status ≠ .running) : s.runStep = some s := by
  rw [State.runStep, step_of_stopped (.inl h)]

theorem State.hostStatus_of_faulted {s : State} {k : Fault} (h : s.status = .faulted k) :
    s.hostStatus = .faulted k := by
  rw [State.hostStatus, h]

theorem State.hostStatus_of_bootFailed {s : State} (h : s.status = .bootFailed) : s.hostStatus = .bootFailed := by
  rw [State.hostStatus, h]

/-- HALTED is read from `ip` (decision D21). -/
theorem State.hostStatus_of_halted {s : State} (running : s.status = .running) (halted : s.Halted) :
    s.hostStatus = .halted := by
  simp only [State.hostStatus, running, if_pos halted]

/-- Settles O7: each of the three conditions is one of the model's ways to be stopped. -/
theorem stoppedMachineKeepsState : Obligations.StoppedMachineKeepsState := by
  refine fun s => ⟨fun running halted => ?_, fun k faulted => ?_, fun failed => ?_⟩
  · exact ⟨step_of_stopped (.inr halted), State.hostStatus_of_halted running halted⟩
  · exact ⟨step_of_stopped (.inl (by simp [faulted])), State.hostStatus_of_faulted faulted⟩
  · exact ⟨step_of_stopped (.inl (by simp [failed])), State.hostStatus_of_bootFailed failed⟩

/-- Settles O8: the machine after the fault has the fault's status, which only a reset changes. -/
theorem faultEndsRunUntilReset : Obligations.FaultEndsRunUntilReset := by
  intro s k faults
  have not_running : (s.enterFault k).status ≠ .running := by simp
  refine ⟨s.enterFault k, ?_, State.hostStatus_of_faulted (State.enterFault_status s k),
    State.runStep_of_not_running not_running, State.loadImage_of_not (State.not_justReset not_running), rfl, rfl⟩
  rw [State.runStep, faults]

/-- Every port of a reset machine is 0 (decision D9). -/
theorem State.port_resetOf (p : Params) (i : Fin 12) : (State.resetOf p).port i = 0#32 := by
  simp [State.port, State.resetOf]

/-- Settles O12: every field is written by the reset, or named as left alone. -/
theorem resetClearsTheMachine : Obligations.ResetClearsTheMachine :=
  fun p => ⟨fun _ => rfl, rfl, rfl, rfl, State.port_resetOf p, rfl, rfl, fun _ => rfl, rfl⟩

/-- A reset machine has empty memory and empty stacks, so only its parameters have to be in range. -/
theorem State.inv_resetOf {p : Params} (hp : p.WellFormed) : (State.resetOf p).Inv :=
  ⟨hp, Memory.wf_nil, by simp [State.resetOf], Nat.zero_le _, Nat.zero_le _⟩

theorem Params.typical_wellFormed : Params.typical.WellFormed :=
  ⟨by decide, by decide, by decide, by decide, validOpcodeMap_opcodeMap⟩

/-- Settles O13: the named reset state is the one with the typical parameters. -/
theorem resetMeetsInvariants : Obligations.ResetMeetsInvariants := by
  have meets (p : Params) (hp : p.WellFormed) : (State.resetOf p).Inv ∧ (State.resetOf p).Handshake :=
    ⟨State.inv_resetOf hp, .inl (State.port_resetOf p 0)⟩
  exact ⟨meets, meets Params.typical Params.typical_wellFormed⟩

end Sys2Proof.Machine
end

section
/-! Proof for the loads that fail (`20_memory.md` R64, decisions D19 and D24). -/

namespace Sys2Proof.Machine

/-- A file that holds words is four bytes for each of them. -/
theorem length_of_imageWords {bs : List Byte} {ws : List Cell} (h : imageWords bs = some ws) :
    bs.length = 4 * ws.length := by
  rw [← imageBytes_of_imageWords h, imageBytes, List.length_flatMap]
  simp [bytesOfCell, Nat.mul_comm]

/-- A file with a partial word holds no words (decision D19). -/
theorem imageWords_of_partial {bs : List Byte} (h : bs.length % 4 ≠ 0) : imageWords bs = none := by
  cases words : imageWords bs with
  | none => rfl
  | some ws => have := length_of_imageWords words; omega

/-- Words that do not fit, or leave 0 in cell 0, fail the load into a machine just reset. -/
theorem State.loadWords_resetOf_fails {p : Params} {ws : List Cell}
    (h : p.memCells < ws.length ∨ ws.getD 0 0#32 = 0#32) :
    (State.resetOf p).loadWords ws = (State.resetOf p).bootFail := by
  refine if_neg ?_
  rintro ⟨fits, boots⟩
  rcases h with large | zero
  · exact absurd fits (not_le.2 large)
  · exact boots ((Memory.read_writeAll_zero_nil ws 0).trans zero)

/-- Settles O60: each way a load fails writes the status BOOT_FAILED, which stops the machine until a reset. -/
theorem failedLoadRunsNothing : Obligations.FailedLoadRunsNothing := by
  intro p file fails
  have not_running : (State.resetOf p).bootFail.status ≠ .running := by simp [State.bootFail]
  refine ⟨(State.resetOf p).bootFail, ?_, State.hostStatus_of_bootFailed rfl, step_of_stopped (.inl not_running),
    State.loadImage_of_not (State.not_justReset not_running)⟩
  rcases fails with rfl | ⟨bs, rfl, partial_word⟩ | ⟨ws, rfl, bad⟩
  · exact State.loadImage_of_justReset (State.justReset_resetOf p) none
  · rw [State.loadImage_of_justReset (State.justReset_resetOf p), Option.bind_some, imageWords_of_partial partial_word]
  · rw [State.loadImage_resetOf_imageBytes, State.loadWords_resetOf_fails bad]

end Sys2Proof.Machine
end

section
/-! Proofs for the rest of control transfer (`41_control.md` R120, R121, R130) and for the order of faults of LIT and a
call (`60_exceptions.md` R237). -/

namespace Sys2Proof.Machine

theorem exec_loop (s : State) :
    exec .loop s = dPop s fun n t => if loopAgain (n - 1#32) then dPush t (n - 1#32) takeBranch else skipOperand t :=
  rfl

theorem loopAgain_iff (r : Cell) : loopAgain r = true ↔ 0 < r.toInt := decide_eq_true_iff

/-- Settles O25: the two ends of the skip are the two answers of `landing`. -/
theorem skipPassesAtMostTwoZeroCells : Obligations.SkipPassesAtMostTwoZeroCells := by
  intro s k
  cases lands : landing s (s.ip + 1#32) with
  | none => exact nopSkip_of_landing_none lands
  | some a => exact nopSkip_of_landing lands

section
variable {s : State} {n : Cell} {rest : List Cell}

/-- A LOOP whose decremented counter is positive puts it back and takes the branch. -/
theorem exec_loop_of_pos (top : s.dstack = n :: rest) (fits : s.dstack.length ≤ s.params.dsCap)
    (again : 0 < (n - 1#32).toInt) : exec .loop s = takeBranch (s.setData ((n - 1#32) :: rest)) := by
  have room : rest.length < s.params.dsCap := by simpa [top] using fits
  rw [exec_loop, dPop_of_cons top, if_pos ((loopAgain_iff _).2 again), dPush_of_lt (by exact room)]
  rfl

/-- A LOOP whose decremented counter is not positive drops it and passes the operand cell unread (decision D13). -/
theorem exec_loop_of_nonpos (top : s.dstack = n :: rest) (done : (n - 1#32).toInt ≤ 0) :
    exec .loop s = .next ((s.setData rest).setIp (s.ip + 1#32)) := by
  rw [exec_loop, dPop_of_cons top, if_neg (mt (loopAgain_iff _).1 (not_lt.2 done))]
  rfl

end

/-- Settles O26: the sign of the decremented counter decides, and only a taken branch reads the operand cell. -/
theorem loopCountsDown : Obligations.LoopCountsDown := by
  refine fun s n rest top fits => ⟨fun again inside => ?_, fun again outside => ?_, fun done => ?_⟩
  · rw [exec_loop_of_pos top fits again, takeBranch_of_inBounds (by exact inside)]
    rfl
  · rw [exec_loop_of_pos top fits again, takeBranch_of_not_inBounds (by exact outside)]
  · exact exec_loop_of_nonpos top done

/-- Settles O30: R130's shape reads the operand cell on the taken side only. -/
theorem untakenBranchReadsNoOperand : Obligations.UntakenBranchReadsNoOperand := by
  refine fun s a b rest _ top => ⟨fun fails => ?_, fun fails => ?_, fun fails => ?_, fun fails => ?_⟩
  · exact condJump_of_false top (mt (condLt_iff a b).1 (not_lt.2 fails))
  · exact condJump_of_false top (mt (condGt_iff a b).1 (not_lt.2 fails))
  · exact condJump_of_false top (mt (condNe_iff a b).1 (not_not.2 fails))
  · exact condJump_of_false top (mt (condEq_iff a b).1 fails)

/-- Settles O33: LIT reads before it pushes, a call pushes before the skip reads. -/
theorem firstFailureGivesTheFault : Obligations.FirstFailureGivesTheFault := by
  refine fun s => ⟨fun outside _ => ?_, fun v full _ => ?_⟩
  · rw [exec_lit, memRead_of_not outside]
  · rw [exec_call, aPush_of_full full]

end Sys2Proof.Machine
end

section
/-! Proofs for memory as the CORE reaches it: the write and the string read (`20_memory.md` R54, R63), and the fetch of
a cell just stored (R62). -/

namespace Sys2Proof.Machine

/-- Settles O36: the bounds check decides, and the new memory is one write. -/
theorem memoryWriteSetsOneCell : Obligations.MemoryWriteSetsOneCell := by
  refine fun s addr v k canonical => ⟨fun nonneg below => ?_, fun outside => ?_⟩
  · exact ⟨s.mem.write addr.toNat v, memWrite_of_inBounds ⟨nonneg, below⟩, Memory.read_write canonical addr.toNat v⟩
  · exact memWrite_of_not (State.not_inBounds_of_outside outside)

/-- An address inside memory is not one that halts the machine. -/
theorem State.not_stopped_of_inBounds {s : State} (running : s.status = .running) (fetched : s.InBounds s.ip) :
    ¬ s.Stopped :=
  State.not_stopped_of_running running fetched.2

/-- The step of a STORE to an address inside memory. -/
theorem step_store_of_inBounds {s : State} {addr value : Cell} {rest : List Cell} (running : s.status = .running)
    (fetched : s.InBounds s.ip) (isStore : s.dispatch (s.mem.read s.ip.toNat) = .store)
    (top : s.dstack = addr :: value :: rest) (inside : s.InBounds addr) :
    step s = .next (((s.setData rest).setMem (s.mem.write addr.toNat value)).setIp (s.ip + 1#32)) := by
  rw [step_of_inBounds (State.not_stopped_of_inBounds running fetched) fetched, isStore,
    exec_store_of_inBounds top inside]
  rfl

/-- Settles O37: the closing increment of the STORE lands on the cell it wrote. -/
theorem storeIsSeenByNextFetch : Obligations.StoreIsSeenByNextFetch := by
  intro s value rest canonical running fetched inside isStore top
  refine ⟨_, step_store_of_inBounds running fetched isStore top inside, rfl, ?_⟩
  rw [step_of_inBounds (State.not_stopped_of_inBounds (by exact running) (by exact inside)) (by exact inside)]
  simp [Memory.read_write canonical]

/-- The scan gives the cells before the first 0, if that lies within what it may look at. -/
theorem scanString_of_zero_at {m : Memory} {n fuel a : Nat} (reach : n < fuel)
    (before : ∀ j < n, m.read (a + j) ≠ 0#32) (zero : m.read (a + n) = 0#32) :
    scanString m fuel a = some ((List.range n).map fun j => m.read (a + j)) := by
  induction n generalizing fuel a with
  | zero =>
    obtain ⟨fuel, rfl⟩ := Nat.exists_eq_add_one.2 reach
    rw [scanString, if_pos (by exact zero)]
    rfl
  | succ n ih =>
    obtain ⟨fuel, rfl⟩ := Nat.exists_eq_add_one.2 (Nat.zero_lt_of_lt reach)
    have shift (j : Nat) : a + 1 + j = a + (j + 1) := by omega
    have rest := ih (a := a + 1) (Nat.lt_of_succ_lt_succ reach) (fun j hj => shift j ▸ before (j + 1) (by omega))
      (shift n ▸ zero)
    rw [scanString, if_neg (by simpa using before 0 (by omega)), rest, List.range_succ_eq_map]
    simp [Function.comp_def, shift]

/-- The scan fails when no cell it may look at is 0. -/
theorem scanString_of_no_zero {m : Memory} {fuel a : Nat} (h : ∀ x, a ≤ x → x < a + fuel → m.read x ≠ 0#32) :
    scanString m fuel a = none := by
  induction fuel generalizing a with
  | zero => rfl
  | succ fuel ih =>
    have first : m.read a ≠ 0#32 := h a le_rfl (by omega)
    rw [scanString, if_neg first, ih fun x hx hx' => h x (by omega) (by omega), Option.map_none]

/-- Settles O38: the read is a bounds check and a scan of what is left of memory. -/
theorem stringReadStopsAtZero : Obligations.StringReadStopsAtZero := by
  refine fun s addr k => ⟨fun n inside reach before zero => ?_, fun inside no_zero => ?_, fun outside => ?_⟩
  · have scanned := scanString_of_zero_at (fuel := s.params.memCells - addr.toNat) (by omega) before zero
    simp only [readString, if_pos inside, scanned]
  · have scanned := scanString_of_no_zero (fuel := s.params.memCells - addr.toNat) fun x low high =>
      no_zero x low (by omega)
    simp only [readString, if_pos inside, scanned, raise]
  · simp only [readString, if_neg outside, raise]

end Sys2Proof.Machine
end

section
/-! Proofs for the arithmetic of `43_alu.md`: every result is the exact integer result narrowed by `wrap32`, so each law
is one about `wrap32`. -/

namespace Sys2Proof.Machine

theorem exec_add (s : State) : exec .add s = binary addCell s := rfl

theorem exec_sub (s : State) : exec .sub s = binary subCell s := rfl

theorem exec_mul (s : State) : exec .mul s = binary mulCell s := rfl

theorem exec_inc (s : State) : exec .inc s = unary (fun b => wrap32 (b.toInt + 1)) s := rfl

theorem exec_dec (s : State) : exec .dec s = unary (fun b => wrap32 (b.toInt - 1)) s := rfl

theorem exec_divmod (s : State) :
    exec .divmod s = dPop s fun b t => dPop t fun a t =>
      if b = 0#32 then .fault .arithmeticFault
      else dPush t (remCell a b) fun t => dPush t (quoCell a b) .next := rfl

/-- A narrowed integer is congruent to the exact one (`00_scope.md` R8). -/
theorem toInt_wrap32_modEq (z : Int) : (wrap32 z).toInt ≡ z [ZMOD 2 ^ 32] := by
  rw [wrap32, BitVec.toInt_ofInt]
  exact Int.bmod_emod

/-- An integer in the range of a cell is not changed by narrowing. -/
theorem toInt_wrap32_of_mem {z : Int} (low : -2 ^ 31 ≤ z) (high : z < 2 ^ 31) : (wrap32 z).toInt = z := by
  rw [wrap32, BitVec.toInt_ofInt, Int.bmod_eq_of_le] <;> omega

/-- The signed range of a cell (`00_scope.md` R7). -/
theorem toInt_mem (b : Cell) : -2 ^ 31 ≤ b.toInt ∧ b.toInt < 2 ^ 31 :=
  ⟨b.le_toInt, b.toInt_lt⟩

/-- The pop makes the room the push needs. -/
theorem unary_of_cons {f : Cell → Cell} {s : State} {b : Cell} {rest : List Cell} (top : s.dstack = b :: rest)
    (fits : s.dstack.length ≤ s.params.dsCap) : unary f s = .next (s.setData (f b :: rest)) := by
  have room : rest.length < s.params.dsCap := by simpa [top] using fits
  rw [unary, dPop_of_cons top, dPush_of_lt (by exact room)]
  rfl

/-- Settles O39: each instruction is the two-operand shape with a narrowed exact result. -/
theorem addSubMulWrap : Obligations.AddSubMulWrap :=
  ⟨twoToOne_of_binary exec_add fun _ _ => toInt_wrap32_modEq _,
    twoToOne_of_binary exec_sub fun _ _ => toInt_wrap32_modEq _,
    twoToOne_of_binary exec_mul fun _ _ => toInt_wrap32_modEq _⟩

/-- One more than a cell, narrowed: only the greatest cell wraps. -/
theorem toInt_wrap32_succ (b : Cell) :
    (wrap32 (b.toInt + 1)).toInt = if b.toInt = 2 ^ 31 - 1 then -2 ^ 31 else b.toInt + 1 := by
  obtain ⟨low, high⟩ := toInt_mem b
  split
  case isTrue greatest => rw [greatest]; decide
  case isFalse smaller => exact toInt_wrap32_of_mem (by omega) (by omega)

/-- One less than a cell, narrowed: only the least cell wraps. -/
theorem toInt_wrap32_pred (b : Cell) :
    (wrap32 (b.toInt - 1)).toInt = if b.toInt = -2 ^ 31 then 2 ^ 31 - 1 else b.toInt - 1 := by
  obtain ⟨low, high⟩ := toInt_mem b
  split
  case isTrue least => rw [least]; decide
  case isFalse greater => exact toInt_wrap32_of_mem (by omega) (by omega)

/-- Settles O40: the one-operand shape with the exact result by one, narrowed. -/
theorem incDecWrap : Obligations.IncDecWrap := by
  refine fun s b rest top fits => ⟨⟨_, ?_, toInt_wrap32_succ b⟩, ⟨_, ?_, toInt_wrap32_pred b⟩⟩
  · rw [exec_inc, unary_of_cons top fits]
    rfl
  · rw [exec_dec, unary_of_cons top fits]
    rfl

end Sys2Proof.Machine
end

section
/-! Proofs for the shift laws (`43_alu.md` R174). -/

namespace Sys2Proof.Machine

theorem exec_shl (s : State) : exec .shl s = binary shlCell s := rfl

theorem exec_shr (s : State) : exec .shr s = binary shrCell s := rfl

/-- The low five bits of a cell are its remainder by 32. -/
theorem shiftCount_eq (b : Cell) : shiftCount b = b.toNat % 32 := by
  simp [shiftCount, BitVec.extractLsb_toNat]

theorem getLsbD_shlCell (a b : Cell) {j : Nat} (hj : j < 32) :
    (shlCell a b).getLsbD j = (decide (b.toNat % 32 ≤ j) && a.getLsbD (j - b.toNat % 32)) := by
  rw [shlCell, shiftCount_eq, BitVec.getLsbD_shiftLeft]
  simp [hj, ← decide_not]

theorem getLsbD_shrCell (a b : Cell) {j : Nat} (hj : j < 32) :
    (shrCell a b).getLsbD j =
      if j + b.toNat % 32 < 32 then a.getLsbD (j + b.toNat % 32) else a.getLsbD 31 := by
  have sign : a.msb = a.getLsbD 31 := rfl
  rw [shrCell, shiftCount_eq, BitVec.getLsbD_sshiftRight, Nat.add_comm, sign]
  simp [Nat.not_le.2 hj]

/-- Shifting down with copies of the sign rounds toward minus infinity. -/
theorem toInt_shrCell (a b : Cell) : (shrCell a b).toInt = a.toInt / 2 ^ (b.toNat % 32) := by
  rw [shrCell, shiftCount_eq, BitVec.toInt_sshiftRight, Int.shiftRight_eq_div_pow]
  norm_cast

/-- Settles O42: the two-operand shape with the shift of the second-popped cell (decision D4). -/
theorem shiftLaws : Obligations.ShiftLaws :=
  ⟨twoToOne_of_binary exec_shl fun a b _ => getLsbD_shlCell a b,
    twoToOne_of_binary exec_shr fun a b => ⟨fun _ => getLsbD_shrCell a b, toInt_shrCell a b⟩⟩

end Sys2Proof.Machine
end

section
/-! Proofs for DIVMOD (`43_alu.md` R164): its two results are the library's signed division and remainder of words,
where only the least cell by -1 does not divide exactly (decision D3). -/

namespace Sys2Proof.Machine

theorem quoCell_eq_sdiv (a b : Cell) : quoCell a b = a.sdiv b := by
  rw [← BitVec.toInt_inj, quoCell, wrap32, BitVec.toInt_ofInt, BitVec.toInt_sdiv]

theorem remCell_eq_srem (a b : Cell) : remCell a b = a.srem b := by
  rw [remCell, ← Int.tmod_def, ← BitVec.toInt_srem, wrap32, BitVec.ofInt_toInt]

/-- The remainder is smaller than the divisor in absolute value. -/
theorem abs_toInt_remCell_lt {a b : Cell} (nonzero : b ≠ 0#32) : |(remCell a b).toInt| < |b.toInt| := by
  have divisor : b.toInt ≠ 0 := fun h => nonzero (BitVec.toInt_inj.1 h)
  rw [remCell_eq_srem, BitVec.toInt_srem, Int.abs_eq_natAbs, Int.abs_eq_natAbs, Int.natAbs_tmod]
  exact_mod_cast Nat.mod_lt _ (Int.natAbs_pos.2 divisor)

/-- The remainder is 0 or has the dividend's sign. -/
theorem sign_toInt_remCell (a b : Cell) :
    (remCell a b).toInt = 0 ∨ (remCell a b).toInt.sign = a.toInt.sign := by
  rw [remCell_eq_srem, BitVec.toInt_srem, ← Int.sign_eq_zero_iff_zero, Int.sign_tmod]
  split
  case isTrue => exact .inl rfl
  case isFalse => exact .inr rfl

/-- Quotient and remainder give the dividend back, but for the least cell divided by -1. -/
theorem mul_quoCell_add_remCell {a b : Cell} (fits : ¬ (a = minCell ∧ b = -1#32)) :
    b.toInt * (quoCell a b).toInt + (remCell a b).toInt = a.toInt := by
  have exact_quotient : (a.sdiv b).toInt = a.toInt.tdiv b.toInt :=
    BitVec.toInt_sdiv_of_ne_or_ne a b (not_and_or.1 fits)
  rw [quoCell_eq_sdiv, exact_quotient, remCell_eq_srem, BitVec.toInt_srem, Int.mul_tdiv_add_tmod]

/-- The two pops make the room the two pushes need. -/
theorem exec_divmod_of_ne_zero {s : State} {a b : Cell} {rest : List Cell} (top : s.dstack = b :: a :: rest)
    (fits : s.dstack.length ≤ s.params.dsCap) (nonzero : b ≠ 0#32) :
    exec .divmod s = .next (s.setData (quoCell a b :: remCell a b :: rest)) := by
  have room : rest.length + 1 < s.params.dsCap := by simpa [top] using fits
  rw [exec_divmod, dPop_of_cons top, dPop_of_cons rfl, if_neg nonzero, dPush_of_lt (by exact Nat.lt_of_succ_lt room),
    dPush_of_lt (by exact room)]
  rfl

/-- A zero divisor faults, once both cells are there. -/
theorem exec_divmod_of_zero {s : State} {a : Cell} {rest : List Cell} (top : s.dstack = 0#32 :: a :: rest) :
    exec .divmod s = .fault .arithmeticFault := by
  rw [exec_divmod, dPop_of_cons top, dPop_of_cons rfl, if_pos rfl]

/-- Settles O43: the laws of the two results, and the zero divisor's fault. -/
theorem divmodTruncates : Obligations.DivmodTruncates := by
  refine fun s a b rest top fits => ⟨fun nonzero => ?_, fun zero => ?_⟩
  · refine ⟨quoCell a b, remCell a b, exec_divmod_of_ne_zero top fits nonzero, abs_toInt_remCell_lt nonzero,
      sign_toInt_remCell a b, fun divides => (mul_quoCell_add_remCell divides).symm, ?_⟩
    rintro rfl rfl
    decide
  · subst zero
    exact exec_divmod_of_zero top

end Sys2Proof.Machine
end

section
/-! Proofs for IN and OUT (`44_io.md` R190, R191). -/

namespace Sys2Proof.Machine

theorem exec_inPort (s : State) :
    exec .inPort s = dPop s fun x t => portIndex x fun i => dPush t (t.port i) fun t => .next (t.setPort i 0#32) := rfl

theorem exec_outPort (s : State) :
    exec .outPort s = dPop s fun x t => dPop t fun y t => portIndex x fun i =>
      .next ((t.setPort i y).setPort 0 0#32) := rfl

/-- A cell that holds a port's number selects that port. -/
theorem portIndex_of_toInt_eq {x : Cell} {i : Fin 12} {k : Fin 12 → Out} (h : x.toInt = (i.val : Int)) :
    portIndex x k = k i := by
  rw [portIndex_of_range (by omega)]
  congr
  omega

/-- Settles O44: the index is checked before the push, for which the pop has made room. -/
theorem inReadsAndZeroesPort : Obligations.InReadsAndZeroesPort := by
  refine fun s => ⟨fun x rest i top fits number => ?_, fun x rest top outside => ?_, fun empty => ?_⟩
  · have room : rest.length < s.params.dsCap := by simpa [top] using fits
    rw [exec_inPort, dPop_of_cons top, portIndex_of_toInt_eq number, dPush_of_lt (by exact room)]
    rfl
  · rw [exec_inPort, dPop_of_cons top, portIndex_of_not (by omega)]
  · rw [exec_inPort, dPop_of_nil empty]

/-- Settles O45: both cells are popped before the index is checked. -/
theorem outWritesPortAndClearsHandshake : Obligations.OutWritesPortAndClearsHandshake := by
  refine fun s => ⟨fun x y rest i top number => ?_, fun x y rest top outside => ?_, fun few => ?_⟩
  · rw [exec_outPort, dPop_of_cons top, dPop_of_cons rfl, portIndex_of_toInt_eq number]
    rfl
  · rw [exec_outPort, dPop_of_cons top, dPop_of_cons rfl, portIndex_of_not (by omega)]
  · rw [exec_outPort, dPop_dPop_of_length_lt few]

end Sys2Proof.Machine
end

section
/-! Proofs for the passes of WAIT that service port 1, port 2 or nothing (`44_io.md` R193 to R196, R201). -/

namespace Sys2Proof.Machine

variable {s : State}

theorem portPass_of_posted_none (h : posted s = none) : portPass s = .next s := by
  simpa [h] using portPass_cases s

theorem portPass_of_posted_storage (h : posted s = some 4) : portPass s = serviceStorage s := by
  have ⟨_, pass⟩ : s.port 4 ≠ 0#32 ∧ portPass s = serviceStorage s := by simpa [h] using portPass_cases s
  exact pass

theorem portPass_of_posted_query (h : posted s = some 5) : portPass s = serviceQuery s := by
  have ⟨_, pass⟩ : (s.port 5).toInt < 0 ∧ portPass s = serviceQuery s := by simpa [h] using portPass_cases s
  exact pass

theorem isNegative_iff (c : Cell) : isNegative c = true ↔ c.toInt < 0 := decide_eq_true_iff

theorem portPass_of_input (ready : s.port 0 = 0#32) (input : s.port 1 = 1#32) : portPass s = serviceInput s := by
  rw [portPass, if_neg (not_not.2 ready), if_pos input]

theorem portPass_of_console (ready : s.port 0 = 0#32) (no_input : s.port 1 ≠ 1#32) (console : s.port 2 = 1#32) :
    portPass s = serviceConsole s := by
  rw [portPass, if_neg (not_not.2 ready), if_neg no_input, if_pos console]

/-- Settles O47: with none of the four request values present, nothing is posted, whatever port 0 holds. -/
theorem idlePassDoesNothing : Obligations.IdlePassDoesNothing := by
  intro s no_input no_console no_storage no_query
  have nothing_posted : posted s = none := by
    simp [posted, no_input, no_console, no_storage, not_lt.2 no_query]
  rw [exec_wait, portPass_of_posted_none nothing_posted]

/-- A hold leaves the machine as `State.heldAt` says (log entry 6). -/
theorem hold_eq (s : State) : hold s = .next s.heldAt := rfl

/-- The closing increment takes a held machine back to the same WAIT. -/
theorem closeStep_heldAt (s : State) : closeStep (.next s.heldAt) = .next { s with draws := s.draws + 1 } := by
  rw [closeStep_next]
  simp [State.heldAt, State.setIp]

/-- What the input device delivers is its sentinel or a byte (log entry 7). -/
theorem inputCell_range (n : Nat) : inputCell n = Config.inputEof ∨ (inputCell n).toNat < 256 := by
  unfold inputCell
  split
  · exact .inl rfl
  · right
    rw [BitVec.toNat_setWidth]
    exact lt_of_le_of_lt (Nat.mod_le _ _) (BitVec.isLt _)

theorem serviceInput_eq (s : State) :
    serviceInput s =
      if Config.answered s.draws then
        .next { s with
          ports := (s.ports.set 1 (inputCell (s.draws + 1))).set 0 1#32, calls := .inputRead :: s.calls,
          draws := s.draws + 2 }
      else .next s.heldAt := rfl

/-- Settles O48: the device's answer decides between the delivery and the hold, also under the closing increment. -/
theorem inputRequestDeliversByteOrHolds : Obligations.InputRequestDeliversByteOrHolds := by
  intro s ready input
  have pass := serviceInput_eq s
  rw [← portPass_of_input ready input, ← exec_wait] at pass
  refine ⟨inputCell (s.draws + 1), inputCell_range _, pass, fun running fetched isWait => ?_⟩
  rw [step_of_inBounds (State.not_stopped_of_inBounds running fetched) fetched, isWait, pass]
  split
  · rfl
  · exact closeStep_heldAt s

/-- The device call for a console cell is the clear exactly for a negative one (decision D25). -/
theorem consoleCall_eq (c : Cell) : consoleCall c = if c.toInt < 0 then .consoleClear else .consoleEmit c := by
  simp [consoleCall, isNegative_iff]

/-- Settles O49: the console service is one pop and a completion. -/
theorem consoleRequestEmitsTop : Obligations.ConsoleRequestEmitsTop := by
  refine fun s ready no_input console => ⟨fun c rest top => ?_, fun empty => ?_⟩
  · rw [exec_wait, portPass_of_console ready no_input console, serviceConsole, dPop_of_cons top, ← consoleCall_eq]
    rfl
  · rw [exec_wait, portPass_of_console ready no_input console, serviceConsole, dPop_of_nil empty]

end Sys2Proof.Machine
end

section
/-! Proofs for the storage requests (`44_io.md` R197, R203, R205). -/

namespace Sys2Proof.Machine

variable {s : State}

/-! The request each code selects. -/

theorem serviceStorage_of_one (h : s.port 4 = 1#32) : serviceStorage s = saveRequest s := by
  rw [serviceStorage, if_pos h]

theorem serviceStorage_of_two (h : s.port 4 = 2#32) : serviceStorage s = inputSourceRequest s := by
  rw [serviceStorage, if_neg (by rw [h]; decide), if_pos h]

theorem serviceStorage_of_minus_one (h : s.port 4 = -1#32) : serviceStorage s = openRequest s := by
  rw [serviceStorage, if_neg (by rw [h]; decide), if_neg (by rw [h]; decide), if_pos h]

/-- A code with no meaning of its own goes to the request table if it is negative, and is refused otherwise. -/
theorem serviceStorage_of_other (one : s.port 4 ≠ 1#32) (two : s.port 4 ≠ 2#32) (minus_one : s.port 4 ≠ -1#32) :
    serviceStorage s =
      if isNegative (s.port 4) then
        match Config.port4Table (s.port 4) with
        | some op => fileRequest (s.port 4) op s
        | none => .refused (.undefinedStorageCode (s.port 4))
      else .refused (.undefinedStorageCode (s.port 4)) :=
  (if_neg one).trans ((if_neg two).trans (if_neg minus_one))

/-- Settles O50: the save request takes no arguments. -/
theorem saveRequestHandsOverMemory : Obligations.SaveRequestHandsOverMemory := by
  intro s storage save
  rw [exec_wait, portPass_of_posted_storage storage, serviceStorage_of_one save]
  rfl

/-- Taking arguments fails with one fault whatever comes next, or gives arguments and a tail of the data stack to
whatever comes next. -/
theorem argsFail_or_takesArgs (steps : List ArgStep) (s : State) :
    (∃ f, ArgsFail steps s f) ∨ ∃ args l, TakesArgs steps s args l ∧ l <:+ s.dstack := by
  rcases takeArgs_cases steps s with few | outside | ⟨args, l, tail, takes⟩
  · exact .inl ⟨_, few⟩
  · exact .inl ⟨_, outside⟩
  · exact .inr ⟨args, l, takes, tail⟩

/-- An open answers a positive cell, 0 or -1 (log entry 8). -/
theorem openAnswer_range (n : Nat) : 0 < (openAnswer n).toInt ∨ openAnswer n = 0#32 ∨ openAnswer n = -1#32 := by
  unfold openAnswer positiveCell
  split_ifs with succeeds positive minus
  · exact .inl positive
  · exact .inl (by decide)
  · exact .inr (.inr rfl)
  · exact .inr (.inl rfl)

/-- Settles O51: both requests take their arguments and complete with the response their code has. -/
theorem nameAndOpenRequestsRespond : Obligations.NameAndOpenRequestsRespond := by
  intro s storage code steps
  have not_both : -1#32 ≠ 2#32 := by decide
  rw [exec_wait, portPass_of_posted_storage storage]
  rcases code with two | minus_one
  · have steps_eq : steps = [.string Config.inputNameSource] := if_pos two
    rw [steps_eq, serviceStorage_of_two two, two]
    rcases argsFail_or_takesArgs [.string Config.inputNameSource] s with ⟨f, fails⟩ | ⟨args, l, takes, tail⟩
    · exact .inl ⟨f, fails, fails _⟩
    · exact .inr ⟨args, l, 0#32, s.draws, takes, tail, fun _ => rfl, .inr (.inl rfl), takes _⟩
  · have steps_eq : steps = openArgs := if_neg (minus_one ▸ not_both)
    rw [steps_eq, serviceStorage_of_minus_one minus_one, minus_one]
    rcases argsFail_or_takesArgs openArgs s with ⟨f, fails⟩ | ⟨args, l, takes, tail⟩
    · exact .inl ⟨f, fails, fails _⟩
    · exact .inr ⟨args, l, openAnswer s.draws, s.draws + 1, takes, tail, fun h => absurd h not_both,
        openAnswer_range _, takes _⟩

/-- A file request whose arguments are there is held exactly when it is a read the device has not answered, and then
pops nothing (decision D23); else it completes with the device's answer. -/
theorem fileRequest_of_takesArgs {code : Cell} {op : FileOp} {args : List DevArg} {l : List Cell}
    (takes : TakesArgs op.args s args l) :
    if op.kind = .readByte ∧ Config.answered s.draws = false then fileRequest code op s = .next s.heldAt
    else ∃ r n, fileRequest code op s = .next { s with
      dstack := l, ports := (s.ports.set 4 r).set 0 1#32, calls := .storage code args :: s.calls, draws := n } := by
  rw [fileRequest, takes]
  by_cases isRead : op.kind = .readByte
  · cases answer : Config.answered s.draws with
    | false => simp [isRead, awaitDevice, answer, hold_eq]
    | true =>
      simp only [isRead, awaitDevice, answer, State.setData_draws]
      exact ⟨_, _, rfl⟩
  · simp only [isRead, false_and, if_false]
    exact ⟨_, _, rfl⟩

/-- Settles O52: the table decides between refusal and service, the arguments between fault and service, the device
between hold and completion. -/
theorem fileRequestsFollowTheTable : Obligations.FileRequestsFollowTheTable := by
  intro s storage negative minus_one
  have one : s.port 4 ≠ 1#32 := fun h => absurd negative (by rw [h]; decide)
  have two : s.port 4 ≠ 2#32 := fun h => absurd negative (by rw [h]; decide)
  rw [exec_wait, portPass_of_posted_storage storage, serviceStorage_of_other one two minus_one,
    if_pos ((isNegative_iff _).2 negative)]
  cases Config.port4Table (s.port 4) with
  | none => rfl
  | some op =>
    rcases argsFail_or_takesArgs op.args s with ⟨f, fails⟩ | ⟨args, l, takes, tail⟩
    · exact .inl ⟨f, fails, fails _⟩
    · exact .inr ⟨args, l, takes, tail, fileRequest_of_takesArgs takes⟩

end Sys2Proof.Machine
end

section
/-! Proofs for the queries (`44_io.md` R198, R204, R205). -/

namespace Sys2Proof.Machine

variable {s : State}

theorem serviceQuery_of_depth (h : s.port 5 = -5#32) : serviceQuery s = finishQuery (countCell s.dDepth) s := by
  rw [serviceQuery, if_pos h]

theorem serviceQuery_of_halt (h : s.port 5 = -9#32) : serviceQuery s = haltRequest s := by
  rw [serviceQuery, if_neg (by rw [h]; decide), if_pos h]

theorem serviceQuery_of_other (depth : s.port 5 ≠ -5#32) (halt : s.port 5 ≠ -9#32) :
    serviceQuery s = match Config.port5Table (s.port 5) with
      | some fact => queryFact fact s
      | none => .refused (.undefinedQueryCode (s.port 5)) :=
  (if_neg depth).trans (if_neg halt)

/-- A number below 2^31 is the signed value of its cell. -/
theorem toInt_ofNat_of_lt {n : Nat} (h : n < 2 ^ 31) : (BitVec.ofNat 32 n).toInt = (n : Int) := by
  rw [BitVec.toInt_ofNat', Int.bmod_eq_of_le] <;> omega

/-- A count in the cell range is answered as it is (log entry 11 for the others). -/
theorem toInt_countCell {n : Nat} (h : n < 2 ^ 31) : (countCell n).toInt = (n : Int) := by
  rw [countCell, if_pos h, toInt_ofNat_of_lt h]

/-- Settles O53: the depth is a count. -/
theorem depthQueryAnswersDepth : Obligations.DepthQueryAnswersDepth := by
  intro s query depth fits
  refine ⟨countCell s.dDepth, toInt_countCell fits, ?_⟩
  rw [exec_wait, portPass_of_posted_query query, serviceQuery_of_depth depth]
  rfl

/-- Settles O54, one case for each kind of fact the table can name. -/
theorem otherQueriesFollowTheTable : Obligations.OtherQueriesFollowTheTable := by
  intro s query depth halt
  rw [exec_wait, portPass_of_posted_query query, serviceQuery_of_other depth halt]
  cases Config.port5Table (s.port 5) with
  | none => rfl
  | some fact =>
    cases fact with
    | memorySize =>
      have fits (hp : s.params.WellFormed) : s.params.memCells < 2 ^ 31 := by
        obtain ⟨_, upper, _⟩ := hp
        omega
      exact ⟨_, _, _, rfl, fun _ hp => toInt_countCell (fits hp), by simp, by simp, by simp, rfl⟩
    | addressDepth => exact ⟨_, _, _, rfl, by simp, fun _ fits => toInt_countCell fits, by simp, by simp, rfl⟩
    | wallClock => exact ⟨_, _, _, rfl, by simp, by simp, by simp, by simp, rfl⟩
    | cellWidth => exact ⟨_, _, _, rfl, by simp, by simp, fun _ => rfl, by simp, rfl⟩
    | capability v => exact ⟨_, _, _, rfl, by simp, by simp, by simp, fun _ h => QueryFact.capability.inj h, rfl⟩

/-- Settles O55: N and N + 1 both fit a cell, so the closing increment does not wrap. -/
theorem haltQueryStopsTheMachine : Obligations.HaltQueryStopsTheMachine := by
  intro s query halt hp
  obtain ⟨_, upper, _⟩ := hp
  have next_cell : BitVec.ofNat 32 s.params.memCells + 1#32 = BitVec.ofNat 32 (s.params.memCells + 1) :=
    BitVec.ofNat_add ..|>.symm
  have after : (BitVec.ofNat 32 s.params.memCells + 1#32).toInt = s.params.memCells + 1 := by
    rw [next_cell, toInt_ofNat_of_lt (by omega)]
    rfl
  refine ⟨BitVec.ofNat 32 s.params.memCells, Config.draw s.draws, toInt_ofNat_of_lt (by omega), after, ?_, ?_⟩
  · rw [exec_wait, portPass_of_posted_query query, serviceQuery_of_halt halt]
    rfl
  · intro t running same_params past
    refine State.hostStatus_of_halted running ?_
    rw [State.Halted, past, after, same_params]
    exact Int.le_add_one le_rfl

end Sys2Proof.Machine
end

section
/-! Every answer of a WAIT in one lemma, put together from the statements about the single requests, and what follows
for all of them: `44_io.md` R193, R199, R205, `10_state.md` R46. -/

namespace Sys2Proof.Machine

variable {s t : State}

/-- The states a pass may leave before the closing increment: nothing posted and nothing done, a hold, or one request
serviced on port `p`. -/
inductive PassLeaves (s : State) : State → Prop
  | idle (nothing : posted s = none) : PassLeaves s s
  | held (device_read : posted s = some 1 ∨ posted s = some 4) : PassLeaves s s.heldAt
  | served (p : Fin 12) (v ip : Cell) (l : List Cell) (calls : List DevCall) (draws : Nat) (request : posted s = some p)
      (tail : l <:+ s.dstack) (transfer : ip = s.ip ∨ (posted s = some 5 ∧ s.port 5 = -9#32)) :
      PassLeaves s { s with
        ip := ip, dstack := l, ports := (s.ports.set p v).set 0 1#32, calls := calls, draws := draws }

/-- The requests R205 orders refused: a code without a meaning of its own and without an entry in the table. -/
def UndefinedRequest (s : State) (r : Refusal) : Prop :=
  (posted s = some 4 ∧ r = .undefinedStorageCode (s.port 4) ∧
    s.port 4 ≠ 1#32 ∧ s.port 4 ≠ 2#32 ∧ s.port 4 ≠ -1#32 ∧
    ((s.port 4).toInt < 0 → Config.port4Table (s.port 4) = none)) ∨
  (posted s = some 5 ∧ r = .undefinedQueryCode (s.port 5) ∧ s.port 5 ≠ -5#32 ∧ s.port 5 ≠ -9#32 ∧
    Config.port5Table (s.port 5) = none)

/-- What WAIT may answer. -/
def PassAnswers (s : State) : Out → Prop
  | .next t => PassLeaves s t
  | .fault f => f ≠ .arithmeticFault
  | .refused r => UndefinedRequest s r

/-- Taking arguments pops and reads memory, so it raises no ArithmeticFault. -/
theorem ArgsFail.ne_arithmeticFault {steps : List ArgStep} {f : Fault} (fails : ArgsFail steps s f) :
    f ≠ .arithmeticFault := by
  have fault_of {o : Out} (h : takeArgs steps s (fun _ t => .next t) = o) : o = .fault f := h ▸ fails _
  rcases takeArgs_cases steps s with few | outside | ⟨args, l, _, takes⟩
  · cases fault_of (few _); decide
  · cases fault_of (outside _); decide
  · cases fault_of (takes _)

theorem passAnswers_serviceInput (input : posted s = some 1) : PassAnswers s (serviceInput s) := by
  rw [serviceInput_eq]
  split
  · exact .served 1 _ s.ip s.dstack _ _ input (List.suffix_refl _) (.inl rfl)
  · exact .held (.inl input)

theorem passAnswers_serviceConsole (console : posted s = some 2) : PassAnswers s (serviceConsole s) := by
  rw [serviceConsole]
  cases top : s.dstack with
  | nil =>
    rw [dPop_of_nil top]
    exact (by decide : Fault.stackFault ≠ .arithmeticFault)
  | cons c rest =>
    rw [dPop_of_cons top]
    exact .served 2 _ s.ip rest _ _ console (top ▸ List.suffix_cons c rest) (.inl rfl)

/-- The storage service, by the code: 1; 2 or -1; another negative one, with the table; any other. -/
theorem passAnswers_storage (storage : posted s = some 4) : PassAnswers s (exec .wait s) := by
  by_cases save : s.port 4 = 1#32
  · rw [saveRequestHandsOverMemory s storage save]
    exact .served 4 _ s.ip s.dstack _ _ storage (List.suffix_refl _) (.inl rfl)
  by_cases name_or_open : s.port 4 = 2#32 ∨ s.port 4 = -1#32
  · rcases nameAndOpenRequestsRespond s storage name_or_open with
      ⟨f, fails, pass⟩ | ⟨args, l, r, n, _, tail, _, _, pass⟩ <;> rw [pass]
    · exact fails.ne_arithmeticFault
    · exact .served 4 r s.ip l _ n storage tail (.inl rfl)
  obtain ⟨two, minus_one⟩ := not_or.1 name_or_open
  by_cases negative : (s.port 4).toInt < 0
  · have follows := fileRequestsFollowTheTable s storage negative minus_one
    cases entry : Config.port4Table (s.port 4) with
    | none =>
      rw [entry] at follows
      rw [follows]
      exact .inl ⟨storage, rfl, save, two, minus_one, fun _ => entry⟩
    | some op =>
      rw [entry] at follows
      rcases follows with ⟨f, fails, pass⟩ | ⟨args, l, _, tail, held_or_served⟩
      · rw [pass]
        exact fails.ne_arithmeticFault
      · split at held_or_served
        · rw [held_or_served]
          exact .held (.inr storage)
        · obtain ⟨r, n, pass⟩ := held_or_served
          rw [pass]
          exact .served 4 r s.ip l _ n storage tail (.inl rfl)
  · rw [exec_wait, portPass_of_posted_storage storage, serviceStorage_of_other save two minus_one,
      if_neg (mt (isNegative_iff _).1 negative)]
    exact .inl ⟨storage, rfl, save, two, minus_one, fun h => absurd h negative⟩

/-- The query service, by the code: -5; -9; another, with the table. -/
theorem passAnswers_query (query : posted s = some 5) : PassAnswers s (exec .wait s) := by
  by_cases depth : s.port 5 = -5#32
  · rw [exec_wait, portPass_of_posted_query query, serviceQuery_of_depth depth]
    exact .served 5 _ s.ip s.dstack _ _ query (List.suffix_refl _) (.inl rfl)
  by_cases halt : s.port 5 = -9#32
  · rw [exec_wait, portPass_of_posted_query query, serviceQuery_of_halt halt]
    exact .served 5 _ _ s.dstack _ _ query (List.suffix_refl _) (.inr ⟨query, halt⟩)
  have follows := otherQueriesFollowTheTable s query depth halt
  cases entry : Config.port5Table (s.port 5) with
  | none =>
    rw [entry] at follows
    rw [follows]
    exact .inr ⟨query, rfl, depth, halt, entry⟩
  | some fact =>
    rw [entry] at follows
    obtain ⟨c, n, calls, pass, _⟩ := follows
    rw [pass]
    exact .served 5 c s.ip s.dstack calls n query (List.suffix_refl _) (.inl rfl)

/-- Every answer of a WAIT. -/
theorem passAnswers_exec_wait (s : State) : PassAnswers s (exec .wait s) := by
  rcases portPass_cases s with ⟨nothing, pass⟩ | ⟨input, pass⟩ | ⟨console, pass⟩ | ⟨storage, _⟩ | ⟨query, _⟩
  · rw [exec_wait, pass]
    exact .idle nothing
  · rw [exec_wait, pass]
    exact passAnswers_serviceInput input
  · rw [exec_wait, pass]
    exact passAnswers_serviceConsole console
  · exact passAnswers_storage storage
  · exact passAnswers_query query

theorem passLeaves_of_exec_wait (h : exec .wait s = .next t) : PassLeaves s t := by
  have answers := passAnswers_exec_wait s
  rwa [h] at answers

/-- A serviced request leaves port 0 at 1 and every other port but its own alone. -/
theorem port_of_served (s : State) (ip : Cell) (l : List Cell) (calls : List DevCall) (draws : Nat) (p : Fin 12)
    (v : Cell) (j : Fin 12) :
    State.port { s with
        ip := ip, dstack := l, ports := (s.ports.set p v).set 0 1#32, calls := calls, draws := draws } j =
      if j = 0 then 1#32 else if j = p then v else s.port j :=
  (State.port_setPort (s.setPort p v) 0 j 1#32).trans (by rw [State.port_setPort])

/-- Settles O56: of the three ends of a pass only a service writes port 0. -/
theorem serviceEndsWithHandshakeSet : Obligations.ServiceEndsWithHandshakeSet := by
  intro s t pass
  cases passLeaves_of_exec_wait pass with
  | idle nothing => exact ⟨fun request => absurd nothing request, fun _ => rfl⟩
  | held device_read => exact ⟨fun _ => .inl ⟨rfl, device_read⟩, fun _ => rfl⟩
  | served p v ip l calls draws request tail transfer =>
    refine ⟨fun _ => .inr ?_, fun nothing => by simp [nothing] at request⟩
    rw [port_of_served, if_pos rfl]

/-- Settles O57: a service writes its own port and port 0, and takes cells off the data stack. -/
theorem passTouchesOneRequestOnly : Obligations.PassTouchesOneRequestOnly := by
  intro s t pass
  cases passLeaves_of_exec_wait pass with
  | idle nothing =>
    exact ⟨fun _ => rfl, rfl, List.suffix_refl _, rfl, rfl, fun _ _ _ => rfl, .inl rfl⟩
  | held device_read =>
    exact ⟨fun _ => rfl, rfl, List.suffix_refl _, rfl, rfl, fun _ _ _ => rfl, .inr (.inl rfl)⟩
  | served p v ip l calls draws request tail transfer =>
    refine ⟨fun _ => rfl, rfl, tail, rfl, rfl, fun j not_zero other => ?_, transfer.imp_right .inr⟩
    have not_serviced : j ≠ p := fun h => other (h ▸ request)
    rw [port_of_served, if_neg not_zero, if_neg not_serviced]

end Sys2Proof.Machine
end

section
/-! What the effect of any instruction is made of: single changes of the state, each made by the instructions that own
the piece (`10_state.md` R46). The invariants, the frame and the sources of faults and refusals all follow from one
pass over the instructions. -/

namespace Sys2Proof.Machine

/-- The instructions that may move `ip` before the closing increment. -/
def OwnsIp (i : Instr) : Prop :=
  i ∈ [.lit, .loop, .jump, .ret, .ltJump, .gtJump, .neJump, .eqJump, .zeroExit, .wait] ∨ ∃ v, i = .call v

/-- The instructions that may change the address stack. -/
def OwnsAddressStack (i : Instr) : Prop := i ∈ [.push, .pop, .ret, .zeroExit] ∨ ∃ v, i = .call v

/-- One change that an instruction may make, with the guard under which its operation makes it. -/
inductive Change (i : Instr) (s : State) : State → Prop
  | moveIp (a : Cell) (owns : OwnsIp i) : Change i s (s.setIp a)
  | popData (v : Cell) (l : List Cell) (top : s.dstack = v :: l) : Change i s (s.setData l)
  | pushData (v : Cell) (room : s.dstack.length < s.params.dsCap) : Change i s (s.setData (v :: s.dstack))
  | popAddress (v : Cell) (l : List Cell) (owns : OwnsAddressStack i) (top : s.astack = v :: l) :
      Change i s (s.setAddr l)
  | pushAddress (v : Cell) (owns : OwnsAddressStack i) (room : s.astack.length < s.params.asCap) :
      Change i s (s.setAddr (v :: s.astack))
  | writeCell (a v : Cell) (owns : i = .store) (inside : s.InBounds a) : Change i s (s.setMem (s.mem.write a.toNat v))
  | readPort (j : Fin 12) (owns : i = .inPort) : Change i s (s.setPort j 0#32)
  | writePort (j : Fin 12) (v : Cell) (owns : i = .outPort) : Change i s ((s.setPort j v).setPort 0 0#32)
  | pass (t : State) (owns : i = .wait) (leaves : PassLeaves s t) : Change i s t

/-- What the effect of an instruction may answer: a state reached by its changes, a fault that is ArithmeticFault for
DIVMOD only, and a refusal for WAIT only. -/
def Answers (i : Instr) (s : State) : Out → Prop
  | .next t => Relation.ReflTransGen (Change i) s t
  | .fault f => f = .arithmeticFault → i = .divmod
  | .refused _ => i = .wait

variable {i : Instr} {s t : State} {o : Out}

theorem Answers.after_change (change : Change i s t) (h : Answers i t o) : Answers i s o := by
  cases o with
  | next u => exact .head change h
  | fault f => exact h
  | refused r => exact h

theorem answers_next : Answers i s (.next s) := .refl

theorem answers_stackFault : Answers i s (.fault .stackFault) := nofun

theorem answers_outOfBounds : Answers i s (.fault .outOfBounds) := nofun

theorem answers_moveIp {a : Cell} (owns : OwnsIp i) (h : Answers i (s.setIp a) o) : Answers i s o :=
  h.after_change (.moveIp a owns)

section
variable {a v : Cell}

theorem answers_dPop {k : Cell → State → Out} (h : ∀ v t, Answers i t (k v t)) : Answers i s (dPop s k) := by
  cases top : s.dstack with
  | nil => exact dPop_of_nil top ▸ answers_stackFault
  | cons v l => exact dPop_of_cons top ▸ (h v _).after_change (.popData v l top)

theorem answers_dPeek {k : Cell → Out} (h : ∀ v, Answers i s (k v)) : Answers i s (dPeek s k) := by
  cases top : s.dstack with
  | nil => exact dPeek_of_nil top ▸ answers_stackFault
  | cons v l => exact dPeek_of_cons top ▸ h v

theorem answers_dPush {k : State → Out} (h : ∀ t, Answers i t (k t)) : Answers i s (dPush s v k) := by
  by_cases room : s.dstack.length < s.params.dsCap
  · exact dPush_of_lt room ▸ (h _).after_change (.pushData v room)
  · exact dPush_of_full (not_lt.1 room) ▸ answers_stackFault

theorem answers_aPop {k : Cell → State → Out} (owns : OwnsAddressStack i) (h : ∀ v t, Answers i t (k v t)) :
    Answers i s (aPop s k) := by
  cases top : s.astack with
  | nil => exact aPop_of_nil top ▸ answers_stackFault
  | cons v l => exact aPop_of_cons top ▸ (h v _).after_change (.popAddress v l owns top)

theorem answers_aPush {k : State → Out} (owns : OwnsAddressStack i) (h : ∀ t, Answers i t (k t)) :
    Answers i s (aPush s v k) := by
  by_cases room : s.astack.length < s.params.asCap
  · exact aPush_of_lt room ▸ (h _).after_change (.pushAddress v owns room)
  · exact aPush_of_full (not_lt.1 room) ▸ answers_stackFault

theorem answers_memRead {k : Cell → Out} (h : ∀ v, Answers i s (k v)) : Answers i s (memRead s a k) := by
  by_cases inside : s.InBounds a
  · exact memRead_of_inBounds inside ▸ h _
  · exact memRead_of_not inside ▸ answers_outOfBounds

theorem answers_memWrite {k : State → Out} (owns : i = .store) (h : ∀ t, Answers i t (k t)) :
    Answers i s (memWrite s a v k) := by
  by_cases inside : s.InBounds a
  · exact memWrite_of_inBounds inside ▸ (h _).after_change (.writeCell a v owns inside)
  · exact memWrite_of_not inside ▸ answers_outOfBounds

theorem answers_portIndex {k : Fin 12 → Out} (h : ∀ j, Answers i s (k j)) : Answers i s (portIndex v k) := by
  by_cases range : 0 ≤ v.toInt ∧ v.toInt ≤ 11
  · exact portIndex_of_range range ▸ h _
  · exact portIndex_of_not range ▸ answers_outOfBounds

theorem answers_nopSkip {k : State → Out} (owns : OwnsIp i) (h : ∀ t, Answers i t (k t)) :
    Answers i s (nopSkip s k) := by
  rw [skipPassesAtMostTwoZeroCells]
  split
  · exact answers_moveIp owns (h _)
  · exact answers_outOfBounds

end

theorem answers_takeBranch (owns : OwnsIp i) : Answers i s (takeBranch s) :=
  answers_memRead fun _ => answers_moveIp owns answers_next

theorem answers_binary {f : Cell → Cell → Cell} : Answers i s (binary f s) :=
  answers_dPop fun _ _ => answers_dPop fun _ _ => answers_dPush fun _ => answers_next

theorem answers_unary {f : Cell → Cell} : Answers i s (unary f s) :=
  answers_dPop fun _ _ => answers_dPush fun _ => answers_next

theorem answers_condJump {cond : Cell → Cell → Bool} (owns : OwnsIp i) : Answers i s (condJump cond s) := by
  refine answers_dPop fun b _ => answers_dPop fun a t => ?_
  cases cond a b with
  | false => exact answers_moveIp owns answers_next
  | true => exact answers_takeBranch owns

theorem answers_exec_divmod (s : State) : Answers .divmod s (exec .divmod s) := by
  rw [exec_divmod]
  refine answers_dPop fun b _ => answers_dPop fun a t => ?_
  split
  · exact fun _ => rfl
  · exact answers_dPush fun _ => answers_dPush fun _ => answers_next

theorem answers_exec_loop (s : State) : Answers .loop s (exec .loop s) := by
  have owns : OwnsIp .loop := .inl (by decide)
  rw [exec_loop]
  refine answers_dPop fun n t => ?_
  split
  · exact answers_dPush fun _ => answers_takeBranch owns
  · exact answers_moveIp owns answers_next

theorem answers_exec_zeroExit (s : State) : Answers .zeroExit s (exec .zeroExit s) := by
  rw [exec_zeroExit]
  refine answers_dPeek fun b => ?_
  split
  · exact answers_dPop fun _ _ => answers_aPop (.inl (by decide)) fun _ _ =>
      answers_moveIp (.inl (by decide)) answers_next
  · exact answers_next

theorem answers_exec_wait (s : State) : Answers .wait s (exec .wait s) := by
  have answers := passAnswers_exec_wait s
  cases pass : exec .wait s with
  | next t => exact .single (.pass t rfl (passLeaves_of_exec_wait pass))
  | fault f =>
    rw [pass] at answers
    exact fun h => absurd h answers
  | refused r => rfl

/-- The effect of every instruction is made of its own changes. -/
theorem answers_exec (i : Instr) (s : State) : Answers i s (exec i s) := by
  cases i with
  | nop => exact answers_next
  | lit =>
    rw [exec_lit]
    exact answers_memRead fun _ => answers_moveIp (.inl (by decide)) (answers_dPush fun _ => answers_next)
  | dup =>
    rw [exec_dup]
    exact answers_dPeek fun _ => answers_dPush fun _ => answers_next
  | drop =>
    rw [exec_drop]
    exact answers_dPop fun _ _ => answers_next
  | swap =>
    rw [exec_swap]
    exact answers_dPop fun _ _ => answers_dPop fun _ _ => answers_dPush fun _ => answers_dPush fun _ => answers_next
  | push =>
    rw [exec_push]
    exact answers_dPop fun _ _ => answers_aPush (.inl (by decide)) fun _ => answers_next
  | pop =>
    rw [exec_pop]
    exact answers_aPop (.inl (by decide)) fun _ _ => answers_dPush fun _ => answers_next
  | loop => exact answers_exec_loop s
  | jump =>
    have owns : OwnsIp .jump := .inl (by decide)
    rw [exec_jump]
    exact answers_memRead fun _ => answers_moveIp owns (answers_nopSkip owns fun _ => answers_next)
  | ret =>
    have owns : OwnsIp .ret := .inl (by decide)
    rw [exec_ret]
    exact answers_aPop (.inl (by decide)) fun _ _ => answers_moveIp owns (answers_nopSkip owns fun _ => answers_next)
  | ltJump | gtJump | neJump | eqJump =>
    simp only [exec_ltJump, exec_gtJump, exec_neJump, exec_eqJump]
    exact answers_condJump (.inl (by decide))
  | fetch =>
    rw [exec_fetch]
    exact answers_dPop fun _ _ => answers_memRead fun _ => answers_dPush fun _ => answers_next
  | store =>
    rw [exec_store]
    exact answers_dPop fun _ _ => answers_dPop fun _ _ => answers_memWrite rfl fun _ => answers_next
  | add | sub | mul | and | or | xor | shl | shr =>
    simp only [exec_add, exec_sub, exec_mul, exec_and, exec_or, exec_xor, exec_shl, exec_shr]
    exact answers_binary
  | divmod => exact answers_exec_divmod s
  | zeroExit => exact answers_exec_zeroExit s
  | inc | dec =>
    simp only [exec_inc, exec_dec]
    exact answers_unary
  | inPort =>
    rw [exec_inPort]
    exact answers_dPop fun _ _ => answers_portIndex fun j => answers_dPush fun _ =>
      answers_next.after_change (.readPort j rfl)
  | outPort =>
    rw [exec_outPort]
    exact answers_dPop fun _ _ => answers_dPop fun v _ => answers_portIndex fun j =>
      answers_next.after_change (.writePort j v rfl)
  | wait => exact answers_exec_wait s
  | call v =>
    have owns : OwnsIp (.call v) := .inr ⟨v, rfl⟩
    rw [exec_call]
    exact answers_aPush (.inr ⟨v, rfl⟩) fun _ => answers_moveIp owns (answers_nopSkip owns fun _ => answers_next)

/-- A next state is reached by the instruction's changes. -/
theorem changes_of_exec (h : exec i s = .next t) : Relation.ReflTransGen (Change i) s t := by
  have answers := answers_exec i s
  rwa [h] at answers

/-- What every change keeps, the effect keeps. -/
theorem ends_exec_of_change {P : State → Prop} (kept : ∀ {u v}, Change i u v → P u → P v) (hs : P s) :
    Ends P (exec i s) := by
  intro t ht
  have changes := changes_of_exec ht
  clear ht
  induction changes with
  | refl => exact hs
  | tail _ change ih => exact kept change ih

/-- What every change keeps and `ip` does not matter to, a step keeps. -/
theorem ends_step_of_change {P : State → Prop} (kept : ∀ {i u v}, Change i u v → P u → P v)
    (ip_free : ∀ u a, P u → P (u.setIp a)) (hs : P s) : Ends P (step s) :=
  ends_step (fun _ => hs) fun _ _ => (ends_exec_of_change kept hs).mono fun u hu => ip_free u _ hu

end Sys2Proof.Machine
end

section
/-! Proofs of the invariants and the frame, each one case for each kind of change; and of the sources of refusals and of
ArithmeticFault. -/

namespace Sys2Proof.Machine

variable {i : Instr} {s t : State}

theorem Change.keeps_inv (change : Change i s t) (inv : s.Inv) : t.Inv := by
  obtain ⟨params, canonical, bounded, data, address⟩ := inv
  cases change with
  | moveIp a => exact ⟨params, canonical, bounded, data, address⟩
  | popData v l top =>
    have shorter : l.length ≤ s.dstack.length := by simp [top]
    exact ⟨params, canonical, bounded, shorter.trans data, address⟩
  | pushData v room => exact ⟨params, canonical, bounded, room, address⟩
  | popAddress v l _ top =>
    have shorter : l.length ≤ s.astack.length := by simp [top]
    exact ⟨params, canonical, bounded, data, shorter.trans address⟩
  | pushAddress v _ room => exact ⟨params, canonical, bounded, data, room⟩
  | writeCell a v _ inside =>
    exact ⟨params, Memory.wf_write canonical _ _, Memory.bounded_write bounded inside.toNat_lt v, data, address⟩
  | readPort j => exact ⟨params, canonical, bounded, data, address⟩
  | writePort j v => exact ⟨params, canonical, bounded, data, address⟩
  | pass _ _ leaves =>
    cases leaves with
    | idle => exact ⟨params, canonical, bounded, data, address⟩
    | held => exact ⟨params, canonical, bounded, data, address⟩
    | served _ _ _ l _ _ _ tail => exact ⟨params, canonical, bounded, tail.length_le.trans data, address⟩

/-- Settles O14: every change an instruction makes keeps the invariant, by the guard it is made under. -/
theorem everyStepKeepsInvariant : Obligations.EveryStepKeepsInvariant :=
  fun _ t inv => ends_step_of_change Change.keeps_inv (fun _ _ h => h) inv t

theorem Change.keeps_handshake (change : Change i s t) (handshake : s.Handshake) : t.Handshake := by
  cases change with
  | moveIp | popData | pushData | popAddress | pushAddress | writeCell => exact handshake
  | readPort j =>
    rw [State.Handshake, State.port_setPort]
    split
    · exact .inl rfl
    · exact handshake
  | writePort j v => exact .inl (State.port_setPort_same _ _ _)
  | pass _ _ leaves =>
    cases leaves with
    | idle | held => exact handshake
    | served p v ip l calls draws => exact .inr (port_of_served s ip l calls draws p v 0)

/-- Settles O15: IN writes 0, OUT ends with 0 in port 0, a service with 1, and nothing else writes a port. -/
theorem everyStepKeepsHandshake : Obligations.EveryStepKeepsHandshake :=
  fun _ t handshake => ends_step_of_change Change.keeps_handshake (fun _ _ h => h) handshake t

/-- The pieces of state the instruction does not own are as they were (`10_state.md` R46). -/
structure Frame (i : Instr) (s t : State) : Prop where
  params : t.params = s.params := by rfl
  status : t.status = s.status := by rfl
  mem : i ≠ .store → ∀ a, t.mem.read a = s.mem.read a := by intros; rfl
  astack : ¬ OwnsAddressStack i → t.astack = s.astack := by intros; rfl
  ports : i ∉ [.inPort, .outPort, .wait] → ∀ j, t.port j = s.port j := by intros; rfl
  ip : ¬ OwnsIp i → t.ip = s.ip := by intros; rfl
  devices : i ≠ .wait → t.calls = s.calls ∧ t.draws = s.draws := by intros; exact ⟨rfl, rfl⟩

theorem Frame.refl (i : Instr) (s : State) : Frame i s s := {}

theorem Frame.trans {u : State} (first : Frame i s t) (second : Frame i t u) : Frame i s u where
  params := second.params.trans first.params
  status := second.status.trans first.status
  mem other a := (second.mem other a).trans (first.mem other a)
  astack other := (second.astack other).trans (first.astack other)
  ports other j := (second.ports other j).trans (first.ports other j)
  ip other := (second.ip other).trans (first.ip other)
  devices other :=
    ⟨(second.devices other).1.trans (first.devices other).1, (second.devices other).2.trans (first.devices other).2⟩

/-- A change touches only the piece its guard says the instruction owns. -/
theorem Change.frame (change : Change i s t) : Frame i s t := by
  cases change with
  | moveIp a owns => exact { ip := fun other => absurd owns other }
  | popData | pushData => exact {}
  | popAddress v l owns => exact { astack := fun other => absurd owns other }
  | pushAddress v owns => exact { astack := fun other => absurd owns other }
  | writeCell a v owns => exact { mem := fun other => absurd owns other }
  | readPort j owns => exact { ports := fun other => absurd (by simp [owns]) other }
  | writePort j v owns => exact { ports := fun other => absurd (by simp [owns]) other }
  | pass _ owns leaves =>
    have owns_ip : OwnsIp i := .inl (by simp [owns])
    cases leaves with
    | idle => exact .refl i s
    | held => exact { ip := fun other => absurd owns_ip other, devices := fun other => absurd owns other }
    | served =>
      exact { ip := fun other => absurd owns_ip other, devices := fun other => absurd owns other,
              ports := fun other => absurd (by simp [owns]) other }

theorem frame_of_exec (h : exec i s = .next t) : Frame i s t :=
  ends_exec_of_change (fun change frame => frame.trans change.frame) (.refl i s) t h

/-- Settles O16: the frames of an instruction's changes compose. -/
theorem instructionsChangeOnlyWhatTheyOwn : Obligations.InstructionsChangeOnlyWhatTheyOwn := by
  intro i s t h
  obtain ⟨params, status, mem, astack, ports, ip, devices⟩ := frame_of_exec h
  exact ⟨params, status, mem, fun other no_call => astack (not_or.2 ⟨other, fun ⟨v, hv⟩ => no_call v hv⟩), ports,
    fun other no_call => ip (not_or.2 ⟨other, fun ⟨v, hv⟩ => no_call v hv⟩), devices⟩

/-- Settles O9: only WAIT refuses, and its refusals are those of `UndefinedRequest`; above 2 no code has a meaning. -/
theorem onlyUndefinedRequestsAreRefused : Obligations.OnlyUndefinedRequestsAreRefused := by
  refine ⟨fun i s r refuses => ?_, fun s storage above => ?_⟩
  · have answers := answers_exec i s
    rw [refuses] at answers
    obtain rfl : i = .wait := answers
    have pass := passAnswers_exec_wait s
    rw [refuses] at pass
    exact ⟨rfl, pass⟩
  · have ne_of_small {c : Cell} (small : c.toInt ≤ 2) : s.port 4 ≠ c := fun h => absurd (h ▸ above) (not_lt.2 small)
    rw [exec_wait, portPass_of_posted_storage storage,
      serviceStorage_of_other (ne_of_small (by decide)) (ne_of_small (by decide)) (ne_of_small (by decide)),
      if_neg (mt (isNegative_iff _).1 (by omega))]

/-- Settles O11: only DIVMOD raises it, and in DIVMOD the pops and pushes around the test do not. -/
theorem arithmeticFaultOnlyFromZeroDivisor : Obligations.ArithmeticFaultOnlyFromZeroDivisor := by
  refine fun i s => ⟨fun faults => ?_, fun ⟨divides, a, rest, top⟩ => divides ▸ exec_divmod_of_zero top⟩
  have answers := answers_exec i s
  rw [faults] at answers
  obtain rfl := answers rfl
  refine ⟨rfl, ?_⟩
  rw [exec_divmod] at faults
  match top : s.dstack with
  | [] => simp [dPop_of_nil top] at faults
  | [b] => rw [dPop_of_cons top, dPop_of_nil rfl] at faults; simp at faults
  | b :: a :: rest =>
    by_cases zero : b = 0#32
    · exact ⟨a, rest, by rw [zero]⟩
    · rw [dPop_of_cons top, dPop_of_cons rfl, if_neg zero] at faults
      have pushes : Answers .nop ((s.setData (a :: rest)).setData rest) (.fault .arithmeticFault) :=
        faults ▸ answers_dPush fun _ => answers_dPush fun _ => answers_next
      exact absurd (pushes rfl) (by decide)

end Sys2Proof.Machine
end

section
/-! Proofs for the stack effects: which cells an instruction needs, and what it leaves of the data stack
(`40_stack.md` to `44_io.md`, `60_exceptions.md` R232). -/

namespace Sys2Proof.Machine

/-- Settles O10: one case for each way an instruction begins: with no cell, a peek, a pop, two pops. -/
theorem dataUnderflowRaisesStackFault : Obligations.DataUnderflowRaisesStackFault := by
  intro i s few
  have empty (h : s.dstack.length < 1) : s.dstack = [] := List.length_eq_zero_iff.1 (Nat.lt_one_iff.1 h)
  cases i
  case nop | lit | pop | jump | ret | wait | call => exact absurd few (Nat.not_lt_zero _)
  case dup | zeroExit => simp only [exec_dup, exec_zeroExit, dPeek_of_nil (empty few)]
  case drop | push | loop | fetch | inc | dec | inPort =>
    simp only [exec_drop, exec_push, exec_loop, exec_fetch, exec_inc, exec_dec, unary, exec_inPort,
      dPop_of_nil (empty few)]
  case swap | store | divmod | outPort =>
    simp only [exec_swap, exec_store, exec_divmod, exec_outPort, dPop_dPop_of_length_lt few]
  case ltJump | gtJump | neJump | eqJump =>
    simp only [exec_ltJump, exec_gtJump, exec_neJump, exec_eqJump, condJump, dPop_dPop_of_length_lt few]
  case add | sub | mul | and | or | xor | shl | shr =>
    simp only [exec_add, exec_sub, exec_mul, exec_and, exec_or, exec_xor, exec_shl, exec_shr, binary,
      dPop_dPop_of_length_lt few]

/-- In every next state the data stack has lost `taken` cells and gained `left` in their place. -/
def StackEffect (taken left : Nat) (s : State) (o : Out) : Prop :=
  Ends (fun t => t.dstack.drop left = s.dstack.drop taken ∧ t.dstack.length + taken = s.dstack.length + left) o

variable {s : State} {taken left : Nat}

/-- A stack effect that neither takes nor leaves a cell is the stack kept. -/
theorem stackEffect_zero_zero {o : Out} (h : Ends (fun t => t.dstack = s.dstack) o) : StackEffect 0 0 s o :=
  h.mono fun t same => by simp [same]

theorem stackEffect_next : StackEffect 0 0 s (.next s) := stackEffect_zero_zero ((ends_next s).2 rfl)

theorem stackEffect_nopSkip : StackEffect 0 0 s (nopSkip s .next) :=
  stackEffect_zero_zero (ends_nopSkip fun _ _ => (ends_next _).2 rfl)

theorem stackEffect_takeBranch : StackEffect 0 0 s (takeBranch s) :=
  stackEffect_zero_zero (ends_takeBranch fun _ => (ends_next _).2 rfl)

theorem stackEffect_memRead {a : Cell} {k : Cell → Out} (h : ∀ v, StackEffect taken left s (k v)) :
    StackEffect taken left s (memRead s a k) :=
  ends_memRead fun _ => h _

/-- The address stack is no part of a stack effect. -/
theorem stackEffect_aPop {k : Cell → State → Out}
    (h : ∀ v l, StackEffect taken left (s.setAddr l) (k v (s.setAddr l))) :
    StackEffect taken left s (aPop s k) :=
  ends_aPop fun v l _ => h v l

theorem stackEffect_aPush {v : Cell} {k : State → Out}
    (h : ∀ l, StackEffect taken left (s.setAddr l) (k (s.setAddr l))) :
    StackEffect taken left s (aPush s v k) :=
  ends_aPush fun _ => h _

/-- Where `ip` points is no part of a stack effect. -/
theorem stackEffect_setIp {a : Cell} {o : Out} (h : StackEffect taken left (s.setIp a) o) :
    StackEffect taken left s o := h

/-- A pop adds one to what is taken. -/
theorem stackEffect_dPop {k : Cell → State → Out} (h : ∀ v t, StackEffect taken left t (k v t)) :
    StackEffect (taken + 1) left s (dPop s k) := by
  refine ends_dPop fun v l top => (h v (s.setData l)).mono fun t ⟨below, depth⟩ => ?_
  rw [State.setData_dstack] at below depth
  rw [top, List.drop_succ_cons, List.length_cons]
  exact ⟨below, by omega⟩

/-- A push with nothing left to take adds one to what is left. -/
theorem stackEffect_dPush {v : Cell} {k : State → Out} (h : ∀ t, StackEffect 0 left t (k t)) :
    StackEffect 0 (left + 1) s (dPush s v k) := by
  refine ends_dPush fun _ => (h (s.setData (v :: s.dstack))).mono fun t ⟨below, depth⟩ => ?_
  rw [State.setData_dstack, List.drop_zero] at below
  rw [State.setData_dstack, List.length_cons] at depth
  rw [← List.tail_drop, below]
  exact ⟨rfl, by omega⟩

theorem stackEffect_binary {f : Cell → Cell → Cell} : StackEffect 2 1 s (binary f s) :=
  stackEffect_dPop fun _ _ => stackEffect_dPop fun _ _ => stackEffect_dPush fun _ => stackEffect_next

theorem stackEffect_unary {f : Cell → Cell} : StackEffect 1 1 s (unary f s) :=
  stackEffect_dPop fun _ _ => stackEffect_dPush fun _ => stackEffect_next

theorem stackEffect_condJump {cond : Cell → Cell → Bool} : StackEffect 2 0 s (condJump cond s) := by
  refine stackEffect_dPop fun b _ => stackEffect_dPop fun a t => ?_
  cases cond a b with
  | false => exact stackEffect_zero_zero ((ends_next _).2 rfl)
  | true => exact stackEffect_takeBranch

/-- DUP peeks at the cell it counts as taken. -/
theorem stackEffect_dup : StackEffect 1 2 s (exec .dup s) := by
  rw [exec_dup]
  refine ends_dPeek fun v l top => ends_dPush fun _ => (ends_next _).2 ?_
  simp [top]

theorem stackEffect_divmod : StackEffect 2 2 s (exec .divmod s) := by
  rw [exec_divmod]
  refine stackEffect_dPop fun b _ => stackEffect_dPop fun a t => ?_
  split
  · exact ends_fault _
  · exact stackEffect_dPush fun _ => stackEffect_dPush fun _ => stackEffect_next

/-- The data stack's part of every instruction whose stack effect does not depend on its operands. -/
theorem stackEffect_exec {i : Instr} (fixed : i ∉ [.loop, .zeroExit, .wait]) (s : State) :
    StackEffect (dataTaken i) (dataLeft i) s (exec i s) := by
  cases i with
  | loop | zeroExit | wait => exact absurd (by decide) fixed
  | nop => exact stackEffect_next
  | lit =>
    rw [exec_lit]
    exact stackEffect_memRead fun _ => stackEffect_setIp (stackEffect_dPush fun _ => stackEffect_next)
  | dup => exact stackEffect_dup
  | drop =>
    rw [exec_drop]
    exact stackEffect_dPop fun _ _ => stackEffect_next
  | swap =>
    rw [exec_swap]
    exact stackEffect_dPop fun _ _ => stackEffect_dPop fun _ _ => stackEffect_dPush fun _ => stackEffect_dPush fun _ =>
      stackEffect_next
  | push =>
    rw [exec_push]
    exact stackEffect_dPop fun _ _ => stackEffect_aPush fun _ => stackEffect_next
  | pop =>
    rw [exec_pop]
    exact stackEffect_aPop fun _ _ => stackEffect_dPush fun _ => stackEffect_next
  | jump =>
    rw [exec_jump]
    exact stackEffect_memRead fun _ => stackEffect_setIp stackEffect_nopSkip
  | ret =>
    rw [exec_ret]
    exact stackEffect_aPop fun _ _ => stackEffect_setIp stackEffect_nopSkip
  | ltJump | gtJump | neJump | eqJump =>
    simp only [exec_ltJump, exec_gtJump, exec_neJump, exec_eqJump]
    exact stackEffect_condJump
  | fetch =>
    rw [exec_fetch]
    exact stackEffect_dPop fun _ _ => stackEffect_memRead fun _ => stackEffect_dPush fun _ => stackEffect_next
  | store =>
    rw [exec_store]
    exact stackEffect_dPop fun _ _ => stackEffect_dPop fun _ _ => stackEffect_zero_zero
      (ends_memWrite fun _ => (ends_next _).2 rfl)
  | add | sub | mul | and | or | xor | shl | shr =>
    simp only [exec_add, exec_sub, exec_mul, exec_and, exec_or, exec_xor, exec_shl, exec_shr]
    exact stackEffect_binary
  | divmod => exact stackEffect_divmod
  | inc | dec =>
    simp only [exec_inc, exec_dec]
    exact stackEffect_unary
  | inPort =>
    rw [exec_inPort]
    exact stackEffect_dPop fun _ _ => ends_portIndex fun _ _ => stackEffect_dPush fun _ =>
      stackEffect_zero_zero ((ends_next _).2 rfl)
  | outPort =>
    rw [exec_outPort]
    exact stackEffect_dPop fun _ _ => stackEffect_dPop fun _ _ => stackEffect_zero_zero
      (ends_portIndex fun _ _ => (ends_next _).2 rfl)
  | call v =>
    rw [exec_call]
    exact stackEffect_aPush fun _ => stackEffect_setIp stackEffect_nopSkip

/-- Settles O17: every pop adds to what is taken and every push to what is left. -/
theorem dataStackBelowOperandsUnchanged : Obligations.DataStackBelowOperandsUnchanged :=
  fun _ s t fixed h => stackEffect_exec fixed s t h

end Sys2Proof.Machine
end
